-- ==== Sys2Proof/Word.lean ====
section
/-! DEFINITION. The word and byte types and the sizes of 00_scope.md rule R9. -/

namespace Sys2Proof

/-- A 16-bit unsigned word (R9, R12). -/
abbrev Word := BitVec 16

/-- A byte: the unit of the program image and of the output stream (R58, R34). -/
abbrev Byte := BitVec 8

/-- Words of memory, at addresses 0..32767 (R9, R21). -/
abbrev memorySize : Nat := 32768

/-- Addresses 0..32775 exist: memory and the eight registers (R50). -/
abbrev addressCount : Nat := 32776

/-- The modulus of the arithmetic instructions (R9, R150). -/
abbrev modulus : Nat := 32768

end Sys2Proof
end

