-- ==== Sys2Proof/Config.lean ====
section
/-! DEFINITION. The parameters the spec leaves to an implementation (00_scope.md rule R10), as plain data.
No value of an instruction's result is left open by the spec, so there is no free value here. -/

namespace Sys2Proof

/-- What an opcode word of value 22..65535 does (30_encoding.md rule R86). -/
inductive UnknownOpcodePolicy where
  /-- One word long, no effect but `pc <- pc + 1`: the default. -/
  | noop
  /-- Raises `InvalidOpcode`. -/
  | fault
  deriving DecidableEq, Repr

/-- A character of the host, by its bytes, at least one. DESIGN CHOICE, log 3: the spec names no encoding of
characters, so the host says which bytes are one character. -/
structure Character where
  first : Byte
  rest : List Byte
  deriving DecidableEq, Repr

/-- A line the host answers with: its characters, at least one (60_exceptions.md rule R222). -/
structure Line where
  first : Character
  rest : List Character
  deriving DecidableEq, Repr

/-- The codes that a line becomes, or one of its characters: 16-bit words, at least one (44_io.md rules R172, R175). -/
structure Codes where
  first : Word
  rest : List Word
  deriving DecidableEq, Repr

/-- The three parameters of rule R10. DESIGN CHOICE, log 2: State carries them. -/
structure Config where
  unknownOpcodePolicy : UnknownOpcodePolicy
  /-- `none` is an unbounded stack (10_state.md rule R31). -/
  stackCapacity : Option Nat
  /-- For a line the host does not decode by the default: the codes of each of its characters outside ASCII, in
  order (44_io.md rule R175). DESIGN CHOICE, log 3: the host-side function as a list of its exceptions. It has no say
  over an ASCII character. -/
  inputDecode : List (Line × List Codes)
  deriving DecidableEq, Repr

/-- The default of every parameter (R10). -/
def Config.standard : Config :=
  { unknownOpcodePolicy := .noop, stackCapacity := none, inputDecode := [] }

end Sys2Proof
end

