-- ==== Sys2Proof/Machine/State.lean ====
section
/-! DEFINITION. The state of the machine (10_state.md), the faults of the spec, and the reasons a step stops. -/

namespace Sys2Proof.Machine

/-- The register file (R22): eight words, addresses 32768..32775. -/
structure RegFile where
  r0 : Word
  r1 : Word
  r2 : Word
  r3 : Word
  r4 : Word
  r5 : Word
  r6 : Word
  r7 : Word
  deriving DecidableEq, Repr

/-- One listed memory word at its address. DEDUCED, log 1: the core has no byte addresses (R58), so the unit
of memory is the word. -/
abbrev Cell := Nat × Word

/-- Memory as the list of its words that are not 0, addresses rising (log 1). -/
abbrev Memory := List Cell

/-- The faults of the spec (R202), each with the value it records. -/
inductive FaultCause where
  /-- An access to an address above 32775. -/
  | invalidAddress (addr : Word)
  /-- A value operand word above 32775. -/
  | invalidOperand (w : Word)
  /-- `pop` on an empty stack. -/
  | stackUnderflow
  /-- A zero divisor in `mod`. -/
  | divideByZero
  /-- End-of-stream or a read failure when `in` needs a line. -/
  | ioFailure
  /-- A push onto a full stack, when `stackCapacity` is bounded. -/
  | stackOverflow
  /-- An unassigned opcode, when `unknownOpcodePolicy` is `fault`. -/
  | invalidOpcode (u : Word)
  deriving DecidableEq, Repr

/-- The kinds of graceful halt (R29, R206). -/
inductive HaltKind where
  | haltOpcode
  | returnEmptyStack
  deriving DecidableEq, Repr

/-- The run state (R29). -/
inductive RunState where
  | running
  | awaitingInput
  | halted (kind : HaltKind) (pc : Word)
  /-- `opcode` is `none` when the fetch of the opcode word itself failed (R202). -/
  | faulted (fault : FaultCause) (pc : Word) (opcode : Option Word)
  deriving DecidableEq, Repr

/-- The host's answer to a line request (R222). -/
inductive HostAnswer where
  | line (l : Line)
  | endOfStream
  | readFailure
  deriving DecidableEq, Repr

/-- The architectural state `(M, x, pc, S, Q, O, run)` (R20), with the model's own `hostAnswers` and `config`. -/
structure State where
  /-- `M` (R21). -/
  mem : Memory
  /-- `x` (R22). -/
  regs : RegFile
  /-- `pc` (R26). -/
  pc : Word
  /-- `S`, bottom first, top last (R30). -/
  stack : List Word
  /-- `Q`, next code first (R33). -/
  inputQueue : List Word
  /-- `O`, oldest byte first (R34). -/
  output : List Byte
  /-- `run` (R29). -/
  run : RunState
  /-- The model's own: the answers the host is still to give, next first (R222). DESIGN CHOICE, log 4. -/
  hostAnswers : List HostAnswer
  /-- The model's own: the parameters of R10, changed by no step. DESIGN CHOICE, log 2. -/
  config : Config
  deriving DecidableEq, Repr

/-- Why no step exists. The spec's own faults (`FaultCause`) are not here: they are next states (log 7). -/
inductive Fault where
  /-- Raised by `step` alone, in `Halted` and `Faulted`: "no step is taken" there (R90), "no later step exists"
  (R205). Safe: the machine makes no step the spec lacks. -/
  | runEnded
  /-- Raised by `answerInput` (called by `step`), in `AwaitingInput` when the host gives no answer: the core is
  stuck, "neither a halt nor a fault" of the spec (R173, R225). Safe: the machine makes no step the spec lacks. -/
  | awaitingHost
  deriving DecidableEq, Repr

/-- Why an instruction is given no meaning. -/
inductive Refusal where
  /-- Raised by an arm of `exec` without a meaning; no arm is one. Safe: it stops. -/
  | notModelled (mnemonic : String)
  deriving DecidableEq, Repr

/-- The outcome of a step of this machine. -/
abbrev Result := Host.Outcome State Fault Refusal

/-- Every register 0 (R25). -/
def RegFile.zero : RegFile :=
  { r0 := 0, r1 := 0, r2 := 0, r3 := 0, r4 := 0, r5 := 0, r6 := 0, r7 := 0 }

/-- The machine right after reset with the empty image (R36, R242, R243): every word of memory 0, no answer
of the host listed (log 4), the parameters at their defaults (R10, log 2). `bootImage` is the reset with an
image (log 9). -/
def State.reset : State :=
  { mem := []
    regs := RegFile.zero
    pc := 0
    stack := []
    inputQueue := []
    output := []
    run := .running
    hostAnswers := []
    config := Config.standard }

end Sys2Proof.Machine
end

