-- ==== Sys2Proof/Machine/Ops.lean ====
section
/-! DEFINITION. The shared operations: memory, registers, the unified address space, the stack, the output,
fault entry and graceful halt. The core has no return from a fault (60_exceptions.md rule R207), so none is here. -/

namespace Sys2Proof.Machine

/-- The code the spec gives each fault (R202). -/
def FaultCause.code : FaultCause → Nat
  | .invalidAddress _ => 1
  | .invalidOperand _ => 2
  | .stackUnderflow => 3
  | .divideByZero => 4
  | .ioFailure => 5
  | .stackOverflow => 6
  | .invalidOpcode _ => 7

/-! ### Memory -/

/-- What an address that is not listed reads as: memory beyond the image is 0 (R241). -/
def Memory.unlisted : Word := 0

/-- The word at an address. -/
def Memory.read : Memory → Nat → Word
  | [], _ => Memory.unlisted
  | (k, w) :: m, a => if k = a then w else Memory.read m a

/-- The memory without an entry for the address. -/
def Memory.erase (m : Memory) (a : Nat) : Memory := m.filter (fun c => decide (c.1 ≠ a))

/-- Puts an entry before the first listed address above it. -/
def Memory.insert : Memory → Nat → Word → Memory
  | [], a, v => [(a, v)]
  | (k, w) :: m, a, v => if a < k then (a, v) :: (k, w) :: m else (k, w) :: Memory.insert m a v

/-- Stores a word, keeping the canonical form: writing 0 removes the entry. -/
def Memory.write (m : Memory) (a : Nat) (v : Word) : Memory :=
  if v = Memory.unlisted then Memory.erase m a else Memory.insert (Memory.erase m a) a v

/-- Canonical from a least address on: addresses strictly rising and in range, no entry that reads as unlisted. -/
def Memory.wfFrom : Nat → Memory → Bool
  | _, [] => true
  | lo, (k, w) :: m =>
    decide (lo ≤ k) && decide (k < memorySize) && decide (w ≠ Memory.unlisted) && Memory.wfFrom (k + 1) m

/-- The canonical form of memory (log 1). -/
def Memory.wf (m : Memory) : Bool := Memory.wfFrom 0 m

/-- The memory that holds `ws` from an address up, and 0 elsewhere (R241). -/
def Memory.ofWords : Nat → List Word → Memory
  | _, [] => []
  | a, w :: ws =>
    if w = Memory.unlisted then Memory.ofWords (a + 1) ws else (a, w) :: Memory.ofWords (a + 1) ws

/-! ### Registers -/

/-- `x[i]` (R13). -/
def RegFile.get (x : RegFile) : Fin 8 → Word
  | 0 => x.r0
  | 1 => x.r1
  | 2 => x.r2
  | 3 => x.r3
  | 4 => x.r4
  | 5 => x.r5
  | 6 => x.r6
  | 7 => x.r7

/-- `x[i] <- v` (R13), unmasked (R24). -/
def RegFile.set (x : RegFile) (i : Fin 8) (v : Word) : RegFile :=
  match i with
  | 0 => { x with r0 := v }
  | 1 => { x with r1 := v }
  | 2 => { x with r2 := v }
  | 3 => { x with r3 := v }
  | 4 => { x with r4 := v }
  | 5 => { x with r5 := v }
  | 6 => { x with r6 := v }
  | 7 => { x with r7 := v }

/-! ### The unified address space -/

/-- What a 16-bit address names (R50). -/
inductive Location where
  | memory (a : Nat)
  | register (i : Fin 8)
  | nothing
  deriving DecidableEq, Repr

/-- The one address decoder that serves every access and the operand resolver (R51). -/
def locate (addr : Word) : Location :=
  if addr.toNat < memorySize then .memory addr.toNat
  else if h : addr.toNat - memorySize < 8 then .register ⟨addr.toNat - memorySize, h⟩
  else .nothing

/-- `MemRead(addr, 1)` (R52). -/
def memRead (s : State) (addr : Word) : Except FaultCause Word :=
  match locate addr with
  | .memory a => .ok (Memory.read s.mem a)
  | .register i => .ok (s.regs.get i)
  | .nothing => .error (.invalidAddress addr)

/-- `MemWrite(addr, 1, v)` (R53): the word as it is, unmasked. -/
def memWrite (s : State) (addr v : Word) : Except FaultCause State :=
  match locate addr with
  | .memory a => .ok { s with mem := Memory.write s.mem a v }
  | .register i => .ok { s with regs := s.regs.set i v }
  | .nothing => .error (.invalidAddress addr)

/-! ### Program counter, stack, output -/

/-- `pc <- pc + n`, `n` the instruction's length (R26). DEDUCED, log 10: the sum fits in 16 bits wherever an
instruction has been fetched. -/
def advance (n : Word) (s : State) : State := { s with pc := s.pc + n }

/-- `pc <- target`, with no further advance (R100). -/
def jumpTo (target : Word) (s : State) : State := { s with pc := target }

/-- `Push(v)` (R31). -/
def push (v : Word) (s : State) : Except FaultCause State :=
  if s.config.stackCapacity = some s.stack.length then .error .stackOverflow
  else .ok { s with stack := s.stack ++ [v] }

/-- `Pop()` (R32): the top word and the state without it, or `none` on an empty stack; the caller says what the
failure means. -/
def pop (s : State) : Option (Word × State) :=
  match s.stack.getLast? with
  | none => none
  | some v => some (v, { s with stack := s.stack.dropLast })

/-- `Emit(b)` (R170). -/
def emit (b : Byte) (s : State) : State := { s with output := s.output ++ [b] }

/-! ### Ending an instruction -/

/-- Fault entry (R205): the one shared operation by which an instruction takes a fault. It records the fault,
the pc of the instruction and its opcode word, and changes nothing else (R204). -/
def raiseFault (c : FaultCause) (opcode : Option Word) (s : State) : State :=
  { s with run := .faulted c s.pc opcode }

/-- Graceful halt (R206): pc keeps the address of the instruction. -/
def haltRun (k : HaltKind) (s : State) : State := { s with run := .halted k s.pc }

/-- Ends an instruction that began in `s` with opcode word `op`: its effect, or fault entry in `s` with nothing
of the instruction committed (R204). -/
def conclude (op : Word) (s : State) (r : Except FaultCause State) : Result :=
  match r with
  | .ok t => .next t
  | .error c => .next (raiseFault c (some op) s)

end Sys2Proof.Machine
end

