-- ==== Sys2Proof/Machine/Operands.lean ====
section
/-! DEFINITION. Operand decode (30_encoding.md rules R83 to R85): a value operand is resolved here; a dest
operand is the raw address given to `memWrite`. -/

namespace Sys2Proof.Machine

/-- `Resolve(w)` (R84): a literal, or the contents of a register, one level deep. -/
def resolve (s : State) (w : Word) : Except FaultCause Word :=
  match locate w with
  | .memory _ => .ok w
  | .register i => .ok (s.regs.get i)
  | .nothing => .error (.invalidOperand w)

end Sys2Proof.Machine
end

