-- ==== Sys2Proof/Machine/ArithLogic.lean ====
section
/-! DEFINITION. `add`, `mult`, `mod`, `and`, `or`, `not` (43_arith_logic.md). -/

namespace Sys2Proof.Machine

/-- The exact sum modulo 32768 (R150, R152). -/
def sumMod (vb vc : Word) : Word := BitVec.ofNat 16 ((vb.toNat + vc.toNat) % modulus)

/-- The exact product modulo 32768 (R150, R153). -/
def productMod (vb vc : Word) : Word := BitVec.ofNat 16 ((vb.toNat * vc.toNat) % modulus)

/-- The remainder, reduced modulo 32768; a zero divisor is `DivideByZero` (R154). -/
def remainderMod (vb vc : Word) : Except FaultCause Word :=
  if vc = 0 then .error .divideByZero
  else .ok (BitVec.ofNat 16 ((vb.toNat % vc.toNat) % modulus))

/-- The complement of the low 15 bits; bit 15 of the result is 0 (R157). -/
def complement15 (vb : Word) : Word := ~~~vb &&& 0x7FFF#16

/-- `add a b c` (R152). -/
def execAdd (a b c : Word) (s : State) : Result :=
  conclude 9 s do
    let vb ← resolve s b
    let vc ← resolve s c
    let t ← memWrite s a (sumMod vb vc)
    .ok (advance 4 t)

/-- `mult a b c` (R153). -/
def execMult (a b c : Word) (s : State) : Result :=
  conclude 10 s do
    let vb ← resolve s b
    let vc ← resolve s c
    let t ← memWrite s a (productMod vb vc)
    .ok (advance 4 t)

/-- `mod a b c` (R154): the divisor is tested before the write (R203). -/
def execMod (a b c : Word) (s : State) : Result :=
  conclude 11 s do
    let vb ← resolve s b
    let vc ← resolve s c
    let v ← remainderMod vb vc
    let t ← memWrite s a v
    .ok (advance 4 t)

/-- `and a b c` (R155): 16-bit AND, not reduced. -/
def execAnd (a b c : Word) (s : State) : Result :=
  conclude 12 s do
    let vb ← resolve s b
    let vc ← resolve s c
    let t ← memWrite s a (vb &&& vc)
    .ok (advance 4 t)

/-- `or a b c` (R156): 16-bit OR, not reduced. -/
def execOr (a b c : Word) (s : State) : Result :=
  conclude 13 s do
    let vb ← resolve s b
    let vc ← resolve s c
    let t ← memWrite s a (vb ||| vc)
    .ok (advance 4 t)

/-- `not a b` (R157). -/
def execNot (a b : Word) (s : State) : Result :=
  conclude 14 s do
    let vb ← resolve s b
    let t ← memWrite s a (complement15 vb)
    .ok (advance 3 t)

end Sys2Proof.Machine
end

