-- ==== Sys2Proof/Machine/CharIo.lean ====
section
/-! DEFINITION. `out`, `in` and the input path of the character I/O controller (44_io.md). -/

namespace Sys2Proof.Machine

/-- The characters of a line. -/
def lineChars (l : Line) : List Character := l.first :: l.rest

/-- The bytes of a character. -/
def characterBytes (c : Character) : List Byte := c.first :: c.rest

/-- Codes as the list that the queue holds. -/
def codeWords (codes : Codes) : List Word := codes.first :: codes.rest

/-- A 7-bit ASCII character: one byte below 128 (R175). -/
def isAscii (c : Character) : Bool := c.rest.isEmpty && decide (c.first.toNat < 128)

/-- The default decoding of a character: one code per byte, the byte's value (R175). -/
def byteCodes (c : Character) : Codes :=
  { first := c.first.setWidth 16, rest := c.rest.map (fun b => b.setWidth 16) }

/-- The codes of one character, and what `inputDecode` gives for the characters after it (R175). An ASCII character has
its ASCII code and takes none of what is given; another takes the next codes given, and has its bytes' values where
there are none (log 3). -/
def characterCodes (c : Character) (given : List Codes) : Codes × List Codes :=
  if isAscii c then (byteCodes c, given)
  else
    match given with
    | codes :: later => (codes, later)
    | [] => (byteCodes c, [])

/-- The codes of characters in order, with what `inputDecode` gives for those outside ASCII (R175). -/
def decodeCharacters : List Character → List Codes → List Word
  | [], _ => []
  | c :: cs, given =>
    codeWords (characterCodes c given).1 ++ decodeCharacters cs (characterCodes c given).2

/-- The codes `inputDecode` gives for the characters of a line outside ASCII: none by default (R175, log 3). -/
def givenCodes (cfg : Config) (l : Line) : List Codes := (cfg.inputDecode.lookup l).getD []

/-- `codes(r)` (R172, R175): the codes of the line's characters in order, at least one. -/
def inputCodes (cfg : Config) (l : Line) : Codes :=
  let head := characterCodes l.first (givenCodes cfg l)
  { first := head.1.first, rest := head.1.rest ++ decodeCharacters l.rest head.2 }

/-- `out a` (R171). -/
def execOut (a : Word) (s : State) : Result :=
  conclude 19 s do
    let va ← resolve s a
    .ok (advance 2 (emit (va.setWidth 8) s))

/-- The end of `in a` once its code is known (R173): write the code, go on at the next instruction. -/
def writeInput (a code : Word) (s : State) : Except FaultCause State := do
  let t ← memWrite s a code
  .ok (advance 2 t)

/-- `in a` (R173). With codes queued it takes the first (R172); if the write then fails nothing is committed, the
queue included (R204; DEDUCED, log 8). With none queued it requests a line and waits (R222). -/
def execIn (a : Word) (s : State) : Result :=
  match s.inputQueue with
  | code :: rest => conclude 20 s (writeInput a code { s with inputQueue := rest })
  | [] => .next { s with run := .awaitingInput }

/-- The host's answer to the line request of the `in` at `pc` (R172, R222), and the end of that `in`. The state
in which its write would fault already holds the new line without its first code (R204). DEDUCED, log 5: the
dest word is read again at `pc + 1`, since nothing has changed while the core waited (R214). -/
def answerInput (s : State) : Result :=
  match s.hostAnswers with
  | [] => .fault .awaitingHost
  | .endOfStream :: later => .next (raiseFault .ioFailure (some 20) { s with hostAnswers := later })
  | .readFailure :: later => .next (raiseFault .ioFailure (some 20) { s with hostAnswers := later })
  | .line l :: later =>
    let codes := inputCodes s.config l
    let t := { s with hostAnswers := later, inputQueue := codes.rest, run := .running }
    conclude 20 t do
      let a ← memRead t (t.pc + 1)
      writeInput a codes.first t

end Sys2Proof.Machine
end

