-- ==== Sys2Proof/Machine/Flags.lean ====
section
/-! DEFINITION. The core has no flags (10_state.md rule R28). What other machines keep in flags is here a word
(the result of `eq`, `gt`) or a test of a word (`jt`, `jf`). -/

namespace Sys2Proof.Machine

/-- The result of a comparison as a word: 1 or 0 (R28). -/
def truthWord (p : Bool) : Word := if p then 1 else 0

/-- `(vb = vc) ? 1 : 0` on whole 16-bit values (R140). -/
def equalWord (vb vc : Word) : Word := truthWord (decide (vb = vc))

/-- `(vb > vc) ? 1 : 0`, unsigned on whole 16-bit values (R141). -/
def greaterWord (vb vc : Word) : Word := truthWord (decide (vc.toNat < vb.toNat))

/-- A condition operand is true when it is not 0 (R103, R104). -/
def isNonZero (v : Word) : Bool := decide (v ≠ 0)

end Sys2Proof.Machine
end

