-- ==== Sys2Proof/Machine/Compare.lean ====
section
/-! DEFINITION. `eq` and `gt` (42_compare.md). -/

namespace Sys2Proof.Machine

/-- `eq a b c` (R140). -/
def execEq (a b c : Word) (s : State) : Result :=
  conclude 4 s do
    let vb ← resolve s b
    let vc ← resolve s c
    let t ← memWrite s a (equalWord vb vc)
    .ok (advance 4 t)

/-- `gt a b c` (R141). -/
def execGt (a b c : Word) (s : State) : Result :=
  conclude 5 s do
    let vb ← resolve s b
    let vc ← resolve s c
    let t ← memWrite s a (greaterWord vb vc)
    .ok (advance 4 t)

end Sys2Proof.Machine
end

