-- ==== Sys2Proof/Machine/Control.lean ====
section
/-! DEFINITION. `halt`, `jmp`, `jt`, `jf`, `call`, `ret`, `noop` and the unassigned opcodes (40_control.md). -/

namespace Sys2Proof.Machine

/-- `halt` (R101). -/
def execHalt (s : State) : Result := .next (haltRun .haltOpcode s)

/-- `jmp a` (R102). -/
def execJmp (a : Word) (s : State) : Result :=
  conclude 6 s do
    let va ← resolve s a
    .ok (jumpTo va s)

/-- `jt a b` (R103): both operands are resolved whether the jump is taken or not. -/
def execJt (a b : Word) (s : State) : Result :=
  conclude 7 s do
    let va ← resolve s a
    let vb ← resolve s b
    .ok (if isNonZero va then jumpTo vb s else advance 3 s)

/-- `jf a b` (R104): both operands are resolved whether the jump is taken or not. -/
def execJf (a b : Word) (s : State) : Result :=
  conclude 8 s do
    let va ← resolve s a
    let vb ← resolve s b
    .ok (if isNonZero va then advance 3 s else jumpTo vb s)

/-- `call a` (R105): the target is resolved first, so a bad target pushes nothing. -/
def execCall (a : Word) (s : State) : Result :=
  conclude 17 s do
    let va ← resolve s a
    let t ← push (s.pc + 2) s
    .ok (jumpTo va t)

/-- `ret` (R106): an empty stack is a graceful halt; a popped word is the raw target. -/
def execRet (s : State) : Result :=
  match pop s with
  | none => .next (haltRun .returnEmptyStack s)
  | some (target, t) => .next (jumpTo target t)

/-- `noop` (R107). -/
def execNoop (s : State) : Result := .next (advance 1 s)

/-- An unassigned opcode word (R86, R108), as the parameter `unknownOpcodePolicy` says. -/
def execUnassigned (u : Word) (s : State) : Result :=
  match s.config.unknownOpcodePolicy with
  | .noop => .next (advance 1 s)
  | .fault => .next (raiseFault (.invalidOpcode u) (some u) s)

end Sys2Proof.Machine
end

