-- ==== Sys2Proof/Machine/DataMove.lean ====
section
/-! DEFINITION. `set`, `push`, `pop`, `rmem`, `wmem` (41_data_movement.md). -/

namespace Sys2Proof.Machine

/-- `set a b` (R120). -/
def execSet (a b : Word) (s : State) : Result :=
  conclude 1 s do
    let vb ← resolve s b
    let t ← memWrite s a vb
    .ok (advance 3 t)

/-- `push a` (R121): the operand is resolved. -/
def execPush (a : Word) (s : State) : Result :=
  conclude 2 s do
    let va ← resolve s a
    let t ← push va s
    .ok (advance 2 t)

/-- `pop a` (R122): an empty stack is the fault `StackUnderflow`, before the write is tried. -/
def execPop (a : Word) (s : State) : Result :=
  conclude 3 s
    (match pop s with
    | none => .error .stackUnderflow
    | some (v, t) => do
      let u ← memWrite t a v
      .ok (advance 2 u))

/-- `rmem a b` (R123): `b` is resolved once; the address goes through the unified read. -/
def execRmem (a b : Word) (s : State) : Result :=
  conclude 15 s do
    let vb ← resolve s b
    let v ← memRead s vb
    let t ← memWrite s a v
    .ok (advance 3 t)

/-- `wmem a b` (R124): the first operand is resolved, then used as an address of the unified write. -/
def execWmem (a b : Word) (s : State) : Result :=
  conclude 16 s do
    let va ← resolve s a
    let vb ← resolve s b
    let t ← memWrite s va vb
    .ok (advance 3 t)

end Sys2Proof.Machine
end

