-- ==== Sys2Proof/Syntax.lean ====
section
/-! DEFINITION. The instructions: one constructor per row of spec/opcode_table.json, with the raw operand
words in the order `a`, `b`, `c` (30_encoding.md rule R82). -/

namespace Sys2Proof

/-- The 22 instructions. An operand is the raw word as fetched (00_scope.md rule R14). -/
inductive Instr where
  | halt
  | set (a b : Word)
  | push (a : Word)
  | pop (a : Word)
  | eq (a b c : Word)
  | gt (a b c : Word)
  | jmp (a : Word)
  | jt (a b : Word)
  | jf (a b : Word)
  | add (a b c : Word)
  | mult (a b c : Word)
  | mod (a b c : Word)
  | and (a b c : Word)
  | or (a b c : Word)
  | not (a b : Word)
  | rmem (a b : Word)
  | wmem (a b : Word)
  | call (a : Word)
  | ret
  | out (a : Word)
  /-- The instruction `in`; the bare word is reserved in Lean. -/
  | in_ (a : Word)
  | noop
  deriving DecidableEq, Repr

/-- The two roles of an operand word (R83). -/
inductive Role where
  /-- A raw destination address (R85). -/
  | dest
  /-- A value operand, passed through the operand resolver (R84). -/
  | value
  deriving DecidableEq, Repr

/-- The operand words of an instruction with their roles: the columns `a`, `b`, `c` of rule R82. -/
def Instr.operands : Instr → List (Role × Word)
  | .halt => []
  | .set a b => [(.dest, a), (.value, b)]
  | .push a => [(.value, a)]
  | .pop a => [(.dest, a)]
  | .eq a b c => [(.dest, a), (.value, b), (.value, c)]
  | .gt a b c => [(.dest, a), (.value, b), (.value, c)]
  | .jmp a => [(.value, a)]
  | .jt a b => [(.value, a), (.value, b)]
  | .jf a b => [(.value, a), (.value, b)]
  | .add a b c => [(.dest, a), (.value, b), (.value, c)]
  | .mult a b c => [(.dest, a), (.value, b), (.value, c)]
  | .mod a b c => [(.dest, a), (.value, b), (.value, c)]
  | .and a b c => [(.dest, a), (.value, b), (.value, c)]
  | .or a b c => [(.dest, a), (.value, b), (.value, c)]
  | .not a b => [(.dest, a), (.value, b)]
  | .rmem a b => [(.dest, a), (.value, b)]
  | .wmem a b => [(.value, a), (.value, b)]
  | .call a => [(.value, a)]
  | .ret => []
  | .out a => [(.value, a)]
  | .in_ a => [(.dest, a)]
  | .noop => []

end Sys2Proof
end

