-- ==== Sys2Proof/WellFormed.lean ====
section
/-! DEFINITION. Which instructions have only legal operand words (30_encoding.md rules R83, R89).
An instruction that is not well formed still decodes and runs: it takes the fault of its bad operand. -/

namespace Sys2Proof

/-- A dest operand word that names a memory cell or a register (R83, column dest). -/
def legalDest (w : Word) : Bool := decide (w.toNat < addressCount)

/-- A value operand word that is a literal or names a register (R83, column value). -/
def legalValue (w : Word) : Bool := decide (w.toNat < addressCount)

/-- Whether an operand word is legal in its role. -/
def legalOperand : Role × Word → Bool
  | (.dest, w) => legalDest w
  | (.value, w) => legalValue w

/-- Every operand word is legal in its role: "Every operand word of 0..32775 is legal in every role" (R89). -/
def WellFormed (i : Instr) : Bool := i.operands.all legalOperand

end Sys2Proof
end

