-- ==== Sys2Proof/Decode.lean ====
section
/-! DEFINITION. The decoder, total on any words and on any bytes, and the encoder (30_encoding.md rules R80 to R88). -/

namespace Sys2Proof

/-- An instruction format of rule R81, with the instruction its operand words make. -/
inductive Layout where
  | w1 (i : Instr)
  | w2 (mk : Word → Instr)
  | w3 (mk : Word → Word → Instr)
  | w4 (mk : Word → Word → Word → Instr)

/-- The opcode map of rule R82, from the raw opcode word (R87); `none` is an unassigned opcode (R86). -/
def layout (opc : Word) : Option Layout :=
  match opc.toNat with
  | 0 => some (.w1 .halt)
  | 1 => some (.w3 .set)
  | 2 => some (.w2 .push)
  | 3 => some (.w2 .pop)
  | 4 => some (.w4 .eq)
  | 5 => some (.w4 .gt)
  | 6 => some (.w2 .jmp)
  | 7 => some (.w3 .jt)
  | 8 => some (.w3 .jf)
  | 9 => some (.w4 .add)
  | 10 => some (.w4 .mult)
  | 11 => some (.w4 .mod)
  | 12 => some (.w4 .and)
  | 13 => some (.w4 .or)
  | 14 => some (.w3 .not)
  | 15 => some (.w3 .rmem)
  | 16 => some (.w3 .wmem)
  | 17 => some (.w2 .call)
  | 18 => some (.w1 .ret)
  | 19 => some (.w2 .out)
  | 20 => some (.w2 .in_)
  | 21 => some (.w1 .noop)
  | _ => none

/-- What the decoder answers. -/
inductive Decoded where
  /-- An instruction and the words after it. -/
  | instruction (i : Instr) (rest : List Word)
  /-- Rejected: the opcode word is unassigned (R86); its one word is consumed. -/
  | unassigned (u : Word) (rest : List Word)
  /-- Rejected: the words end before the instruction does. -/
  | truncated
  /-- Rejected: bytes that do not pair into words (R241). -/
  | oddBytes
  deriving DecidableEq, Repr

/-- Decodes the first instruction of a list of words; its length comes from the opcode word alone (R88). -/
def decode : List Word → Decoded
  | [] => .truncated
  | opc :: rest =>
    match layout opc, rest with
    | none, rest => .unassigned opc rest
    | some (.w1 i), rest => .instruction i rest
    | some (.w2 mk), a :: rest => .instruction (mk a) rest
    | some (.w3 mk), a :: b :: rest => .instruction (mk a b) rest
    | some (.w4 mk), a :: b :: c :: rest => .instruction (mk a b c) rest
    | some _, _ => .truncated

/-- Pairs bytes into little-endian words (R58, R241); `none` for an odd number of bytes. -/
def wordsOfBytes : List Byte → Option (List Word)
  | [] => some []
  | [_] => none
  | lo :: hi :: rest => (wordsOfBytes rest).map (fun ws => (hi ++ lo) :: ws)

/-- Decodes the first instruction of a list of bytes, in the byte order of the image (R58). -/
def decodeBytes (bytes : List Byte) : Decoded :=
  match wordsOfBytes bytes with
  | none => .oddBytes
  | some ws => decode ws

/-- The words of an instruction: its opcode (R82), then its operand words in order (R81). -/
def encode : Instr → List Word
  | .halt => [0]
  | .set a b => [1, a, b]
  | .push a => [2, a]
  | .pop a => [3, a]
  | .eq a b c => [4, a, b, c]
  | .gt a b c => [5, a, b, c]
  | .jmp a => [6, a]
  | .jt a b => [7, a, b]
  | .jf a b => [8, a, b]
  | .add a b c => [9, a, b, c]
  | .mult a b c => [10, a, b, c]
  | .mod a b c => [11, a, b, c]
  | .and a b c => [12, a, b, c]
  | .or a b c => [13, a, b, c]
  | .not a b => [14, a, b]
  | .rmem a b => [15, a, b]
  | .wmem a b => [16, a, b]
  | .call a => [17, a]
  | .ret => [18]
  | .out a => [19, a]
  | .in_ a => [20, a]
  | .noop => [21]

/-- The four words of the longest instruction from an opcode-table number: bit 0 of `w` is bit 0 of the
first word, a later word's bits count on from it, and every bit from `nbits` up is 0. -/
def tableWords (nbits w : Nat) : List Word :=
  let v := w % 2 ^ nbits
  [BitVec.ofNat 16 v, BitVec.ofNat 16 (v / 2 ^ 16), BitVec.ofNat 16 (v / 2 ^ 32), BitVec.ofNat 16 (v / 2 ^ 48)]

/-- The instruction the decoder reads from a row of the opcode table. -/
def decodeTableWord (nbits w : Nat) : Option Instr :=
  match decode (tableWords nbits w) with
  | .instruction i _ => some i
  | .unassigned _ _ => none
  | .truncated => none
  | .oddBytes => none

end Sys2Proof
end

