-- ==== Sys2Proof/Machine/Fetch.lean ====
section
/-! DEFINITION. Fetching an instruction's words through the unified read (20_memory.md rule R55), and storing
words where the fetch reads them. -/

namespace Sys2Proof.Machine

/-- What the fetch at `pc` gives. -/
inductive Fetched where
  | instruction (i : Instr)
  | unassigned (u : Word)
  /-- A fetch failed; the opcode word is `none` when it was the opcode fetch (R202). -/
  | fault (c : FaultCause) (opcode : Option Word)
  deriving DecidableEq, Repr

/-- Phase 3 (R91): the operand words at `pc + 1`, `pc + 2`, `pc + 3`, in that order. Each address exists before
the next is formed, so the sums do not wrap (R55, log 10). -/
def fetchOperands (s : State) : Layout → Except FaultCause Instr
  | .w1 i => .ok i
  | .w2 mk => do
    let a ← memRead s (s.pc + 1)
    .ok (mk a)
  | .w3 mk => do
    let a ← memRead s (s.pc + 1)
    let b ← memRead s (s.pc + 2)
    .ok (mk a b)
  | .w4 mk => do
    let a ← memRead s (s.pc + 1)
    let b ← memRead s (s.pc + 2)
    let c ← memRead s (s.pc + 3)
    .ok (mk a b c)

/-- Phases 1 to 3 (R91). -/
def fetch (s : State) : Fetched :=
  match memRead s s.pc with
  | .error c => .fault c none
  | .ok opc =>
    match layout opc with
    | none => .unassigned opc
    | some shape =>
      match fetchOperands s shape with
      | .error c => .fault c (some opc)
      | .ok i => .instruction i

/-- Stores words at consecutive addresses from `addr` up; an address that does not exist takes none. -/
def storeWords (s : State) (addr : Word) : List Word → State
  | [] => s
  | w :: ws =>
    match memWrite s addr w with
    | .ok t => storeWords t (addr + 1) ws
    | .error _ => s

/-- The state in which the next step fetches the given words (at most four): `pc` where all of them exist (address 0
where the present `pc` is too high), the run going on, and the words stored there (log 9). -/
def placeInstruction (s : State) (ws : List Word) : State :=
  let t := { s with run := .running, pc := if s.pc.toNat + 4 ≤ addressCount then s.pc else 0 }
  storeWords t t.pc ws

end Sys2Proof.Machine
end

