-- ==== Sys2Proof/Machine/Step.lean ====
section
/-! DEFINITION. One step of the machine (30_encoding.md rules R90, R91). -/

namespace Sys2Proof.Machine

/-- One step: an instruction while `Running`, the host's answer while `AwaitingInput` (log 5), no step once the
run has ended (R90). -/
def step (s : State) : Host.Outcome State Fault Refusal :=
  match s.run with
  | .running =>
    match fetch s with
    | .instruction i => exec i s
    | .unassigned u => execUnassigned u s
    | .fault c opcode => .next (raiseFault c opcode s)
  | .awaitingInput => answerInput s
  | .halted _ _ => .fault .runEnded
  | .faulted _ _ _ => .fault .runEnded

/-- The state with an opcode-table word where the next step fetches its instruction (log 9). -/
def State.withFetchWord (s : State) (nbits w : Nat) : State := placeInstruction s (tableWords nbits w)

end Sys2Proof.Machine
end

