-- ==== Sys2Proof/Machine/Boot.lean ====
section
/-! DEFINITION. Reset with a program image (70_reset_and_hazards.md rules R240 to R243). -/

namespace Sys2Proof.Machine

/-- Why an image is refused: no run starts (R242). DESIGN CHOICE, log 12: an image that is both is called odd. -/
inductive ImageRefusal where
  | oddLength
  | tooLong
  deriving DecidableEq, Repr

/-- Reset with the image `bytes` (R241, R242): the state the first step starts from. -/
def bootImage (bytes : List Byte) : Except ImageRefusal State :=
  match wordsOfBytes bytes with
  | none => .error .oddLength
  | some ws =>
    if memorySize < ws.length then .error .tooLong
    else .ok { State.reset with mem := Memory.ofWords 0 ws }

end Sys2Proof.Machine
end

