-- ==== Sys2Proof/Machine/HostInterface.lean ====
section
/-! DEFINITION. What the host sees and how it makes lines (60_exceptions.md rules R220 to R225, 44_io.md rule R174).
The step reads none of this; the host's answers reach it through the field `hostAnswers`. -/

namespace Sys2Proof.Machine

/-- The newline character, code 10 (R174). -/
def newline : Character := { first := 10, rest := [] }

/-- The characters of a host to which each byte is a character (R175, its default; log 3). -/
def charactersOfBytes (bytes : List Byte) : List Character := bytes.map (fun b => { first := b, rest := [] })

/-- The lines of a finite stream of characters: each runs up to and including its first newline, the last one to the
end of the stream when no newline comes first (R174). -/
def linesOf : List Character → List Line
  | [] => []
  | c :: cs =>
    if c = newline then { first := c, rest := [] } :: linesOf cs
    else
      match linesOf cs with
      | [] => [{ first := c, rest := [] }]
      | l :: ls => { first := c, rest := lineChars l } :: ls

/-- The answers of a host that reads a finite stream: its lines, then end-of-stream (R174, R222). -/
def answersOfStream (chars : List Character) : List HostAnswer :=
  (linesOf chars).map HostAnswer.line ++ [.endOfStream]

/-- The state with a further answer of the host behind those it already has (R222). -/
def hostAnswer (r : HostAnswer) (s : State) : State := { s with hostAnswers := s.hostAnswers ++ [r] }

/-- How a run ended (R201, R224). -/
inductive RunOutcome where
  /-- A `Halted` outcome is a success. -/
  | success (kind : HaltKind) (pc : Word)
  /-- A `Faulted` outcome is a failure. -/
  | failure (fault : FaultCause) (pc : Word) (opcode : Option Word)
  deriving DecidableEq, Repr

/-- The outcome reported to the host, when the run has ended and only then (R224, R225). -/
def runOutcome (s : State) : Option RunOutcome :=
  match s.run with
  | .running => none
  | .awaitingInput => none
  | .halted k p => some (.success k p)
  | .faulted c p o => some (.failure c p o)

/-- The events the host gets from the core (R221, R222, R224). -/
inductive HostEvent where
  | outByte (b : Byte)
  | lineRequest
  | outcome (r : RunOutcome)
  deriving DecidableEq, Repr

/-- The events of the transition from `s` to `t`. DESIGN CHOICE, log 13: they are read off the two states. -/
def transitionEvents (s t : State) : List HostEvent :=
  (t.output.drop s.output.length).map HostEvent.outByte
    ++ (if t.run = .awaitingInput ∧ s.run ≠ .awaitingInput then [HostEvent.lineRequest] else [])
    ++ (match runOutcome s, runOutcome t with
        | none, some r => [HostEvent.outcome r]
        | _, _ => [])

end Sys2Proof.Machine
end

