-- ==== Sys2Proof/Safety.lean ====
section
/-! DEFINITION. The terms claims are stated in: where an instruction lies, what a store changes, how a run ends,
and the invariant every step keeps. -/

namespace Sys2Proof.Machine

/-- The words of `i` lie at `pc` and the addresses after it, in memory or in the registers (R55, R80). -/
def InstructionAt (s : State) (i : Instr) : Prop :=
  ∀ (k : Nat) (h : k < (encode i).length), memRead s (s.pc + BitVec.ofNat 16 k) = .ok (encode i)[k]

/-- Address `a` reads as `v` in `t`; every other address, of memory and of registers, as in `s`. -/
def OnlyWrote (a v : Word) (s t : State) : Prop :=
  memRead t a = .ok v ∧ ∀ d : Word, d ≠ a → memRead t d = memRead s d

/-- Stack, input queue, output, run state, host answers and parameters are as before. -/
def SameRest (s t : State) : Prop :=
  t.stack = s.stack ∧ t.inputQueue = s.inputQueue ∧ t.output = s.output ∧ t.run = s.run ∧
    t.hostAnswers = s.hostAnswers ∧ t.config = s.config

/-- `i` raises the fault `c`: it ends in fault entry, the pc and its opcode word recorded (R202, R205). What a
fault leaves unchanged is said for all instructions at once in the statement FaultCommitsNothing. -/
def RaisesFault (i : Instr) (c : FaultCause) (op : Word) (s : State) : Prop :=
  ∃ t, exec i s = .next t ∧ t.run = .faulted c s.pc (some op)

/-- The template of an instruction with a dest `a` and two values `b`, `c` that writes one word and cannot fail
otherwise: its encoding, its result with its frame, and its faults in the order they are met (R91, R203). -/
def WritesResultOfTwo (mk : Word → Word → Word → Instr) (op : Word) (result : Word → Word → Word → Prop) : Prop :=
  ∀ (a b c : Word) (s : State),
    encode (mk a b c) = [op, a, b, c] ∧
    (∀ vb vc, resolve s b = .ok vb → resolve s c = .ok vc → a.toNat ≤ 32775 →
      ∃ t r, exec (mk a b c) s = .next t ∧ result vb vc r ∧ OnlyWrote a r s t ∧ SameRest s t ∧ t.pc = s.pc + 4) ∧
    (32776 ≤ b.toNat →
      RaisesFault (mk a b c) (.invalidOperand b) op s) ∧
    (b.toNat ≤ 32775 → 32776 ≤ c.toNat →
      RaisesFault (mk a b c) (.invalidOperand c) op s) ∧
    (b.toNat ≤ 32775 → c.toNat ≤ 32775 → 32776 ≤ a.toNat →
      RaisesFault (mk a b c) (.invalidAddress a) op s)

/-- The same template for a dest `a` and one value `b`. -/
def WritesResultOfOne (mk : Word → Word → Instr) (op : Word) (result : Word → Word → Prop) : Prop :=
  ∀ (a b : Word) (s : State),
    encode (mk a b) = [op, a, b] ∧
    (∀ vb, resolve s b = .ok vb → a.toNat ≤ 32775 →
      ∃ t r, exec (mk a b) s = .next t ∧ result vb r ∧ OnlyWrote a r s t ∧ SameRest s t ∧ t.pc = s.pc + 3) ∧
    (32776 ≤ b.toNat →
      RaisesFault (mk a b) (.invalidOperand b) op s) ∧
    (b.toNat ≤ 32775 → 32776 ≤ a.toNat →
      RaisesFault (mk a b) (.invalidAddress a) op s)

/-- A change of the next state, where there is one. -/
def onNext (f : State → State) : Result → Result
  | .next t => .next (f t)
  | .fault r => .fault r
  | .refused r => .refused r

/-- The run has ended (R225). -/
def ended (s : State) : Bool := (runOutcome s).isSome

/-- A safe state: no fault of the spec has ended the run (R201). -/
def faultFree (s : State) : Bool :=
  match s.run with
  | .running => true
  | .awaitingInput => true
  | .halted _ _ => true
  | .faulted _ _ _ => false

/-- A line as the host frames it: no newline but as its last character (R174). -/
def framed (l : Line) : Prop := newline ∉ (lineChars l).dropLast

/-- What the run state says is true of the rest of the state: a waiting core stands on an `in` with no code
queued (R214, R222); a recorded pc is the pc (R205, R206); a halt stands on the instruction that makes it; a
recorded opcode is the word at pc, and none is recorded only where the opcode fetch failed (R202). -/
def RunRecordTrue (s : State) : Prop :=
  match s.run with
  | .running => True
  | .awaitingInput => s.inputQueue = [] ∧ memRead s s.pc = .ok 20 ∧ ∃ a, memRead s (s.pc + 1) = .ok a
  | .halted .haltOpcode p => p = s.pc ∧ memRead s s.pc = .ok 0
  | .halted .returnEmptyStack p => p = s.pc ∧ memRead s s.pc = .ok 18 ∧ s.stack = []
  | .faulted _ p (some op) => p = s.pc ∧ memRead s s.pc = .ok op
  | .faulted c p none => p = s.pc ∧ c = .invalidAddress s.pc ∧ 32776 ≤ s.pc.toNat

/-- The invariant of the machine. -/
structure Inv (s : State) : Prop where
  /-- Memory is in its canonical form (log 1). -/
  memCanonical : Memory.wf s.mem = true
  /-- A bounded stack is within its bound (R31). -/
  stackBounded : ∀ k, s.config.stackCapacity = some k → s.stack.length ≤ k
  /-- The run state tells the truth. -/
  runRecordTrue : RunRecordTrue s

end Sys2Proof.Machine
end

