-- ==== Sys2Proof/Certificates/Slice0/Obligations.lean ====
section
/-! DEFINITION. The statements about the machine, for the provers. -/

open Sys2Proof Sys2Proof.Machine

/-! ### Reset and the program image -/

/-- R25, R27 and the reset column of R36: registers 0, pc 0, stack, input queue and output empty, Running. -/
def Obligations.ResetLeavesSpecifiedState : Prop :=
  (∀ d : Word, d.toNat ≤ 32775 → memRead State.reset d = .ok 0) ∧
  (∀ i : Fin 8, State.reset.regs.get i = 0) ∧
  State.reset.pc = 0 ∧ State.reset.stack = [] ∧ State.reset.inputQueue = [] ∧ State.reset.output = [] ∧
  State.reset.run = .running

/-- R241: word `a` of the image is the little-endian pair at bytes `2a` and `2a + 1`; beyond the image memory is 0.
Everything else is as in `State.reset`. -/
def Obligations.ImageFillsMemory : Prop :=
  ∀ (bytes : List Byte) (n : Nat), bytes.length = 2 * n → n ≤ 32768 →
    ∃ s, bootImage bytes = .ok s ∧
      (∀ a : Nat, a < 32768 → ∃ v : Word, memRead s (BitVec.ofNat 16 a) = .ok v ∧
        v.toNat = if a < n then (bytes.getD (2 * a) 0).toNat + 256 * (bytes.getD (2 * a + 1) 0).toNat else 0) ∧
      s = { State.reset with mem := s.mem }

/-- The spec's own decision D20 (70_reset_and_hazards.md section 1): an image of odd length, or of more than 65536
bytes, is refused; the empty image gives the reset state. That an odd image is called odd whatever its length is
the model's choice (log 12). -/
def Obligations.BadImagesAreRefused : Prop :=
  (∀ bytes : List Byte, bytes.length % 2 = 1 → bootImage bytes = .error .oddLength) ∧
  (∀ bytes : List Byte, bytes.length % 2 = 0 → 65536 < bytes.length → bootImage bytes = .error .tooLong) ∧
  bootImage [] = .ok State.reset

/-! ### The unified address space -/

/-- R52: the three cases of the unified read. -/
def Obligations.UnifiedReadDecodesAddress : Prop :=
  ∀ (s : State) (addr : Word),
    (addr.toNat ≤ 32767 → memRead s addr = .ok (Memory.read s.mem addr.toNat)) ∧
    (∀ i : Fin 8, addr.toNat = 32768 + i.val → memRead s addr = .ok (s.regs.get i)) ∧
    (32776 ≤ addr.toNat → memRead s addr = .error (.invalidAddress addr))

/-- R53 and R57: a write stores one word, unmasked, at the one address; a register write changes no memory cell and a
memory write no register; above 32775 it is `InvalidAddress`. -/
def Obligations.UnifiedWriteStoresOneWord : Prop :=
  ∀ (s : State) (addr v : Word),
    (addr.toNat ≤ 32775 →
      ∃ t, memWrite s addr v = .ok t ∧ OnlyWrote addr v s t ∧ SameRest s t ∧ t.pc = s.pc ∧
        (addr.toNat ≤ 32767 → t.regs = s.regs) ∧ (32768 ≤ addr.toNat → t.mem = s.mem)) ∧
    (32776 ≤ addr.toNat → memWrite s addr v = .error (.invalidAddress addr))

/-- The canonical form of memory (the model's, log 1) is one list per memory: two canonical memories with the same words
are equal. -/
def Obligations.CanonicalMemoriesReadingAlikeAreEqual : Prop :=
  ∀ m m' : Memory, Memory.wf m = true → Memory.wf m' = true →
    (∀ a : Nat, a < 32768 → Memory.read m a = Memory.read m' a) → m = m'

/-! ### Operands, encoding, decoding -/

/-- R84: literal, register contents (one level), or `InvalidOperand`. -/
def Obligations.ResolveGivesOperandValue : Prop :=
  ∀ (s : State) (w : Word),
    (w.toNat ≤ 32767 → resolve s w = .ok w) ∧
    (∀ i : Fin 8, w.toNat = 32768 + i.val → resolve s w = .ok (s.regs.get i)) ∧
    (32776 ≤ w.toNat → resolve s w = .error (.invalidOperand w))

/-- R82: the opcode, the operand count and the role of every operand of the 22 rows; the other opcode words are
unassigned. -/
def Obligations.OpcodeMapOfTheTable : Prop :=
  ∀ a b c : Word,
    (encode .halt = [0] ∧ Instr.halt.operands = []) ∧
    (encode (.set a b) = [1, a, b] ∧ (Instr.set a b).operands = [(.dest, a), (.value, b)]) ∧
    (encode (.push a) = [2, a] ∧ (Instr.push a).operands = [(.value, a)]) ∧
    (encode (.pop a) = [3, a] ∧ (Instr.pop a).operands = [(.dest, a)]) ∧
    (encode (.eq a b c) = [4, a, b, c] ∧ (Instr.eq a b c).operands = [(.dest, a), (.value, b), (.value, c)]) ∧
    (encode (.gt a b c) = [5, a, b, c] ∧ (Instr.gt a b c).operands = [(.dest, a), (.value, b), (.value, c)]) ∧
    (encode (.jmp a) = [6, a] ∧ (Instr.jmp a).operands = [(.value, a)]) ∧
    (encode (.jt a b) = [7, a, b] ∧ (Instr.jt a b).operands = [(.value, a), (.value, b)]) ∧
    (encode (.jf a b) = [8, a, b] ∧ (Instr.jf a b).operands = [(.value, a), (.value, b)]) ∧
    (encode (.add a b c) = [9, a, b, c] ∧ (Instr.add a b c).operands = [(.dest, a), (.value, b), (.value, c)]) ∧
    (encode (.mult a b c) = [10, a, b, c] ∧ (Instr.mult a b c).operands = [(.dest, a), (.value, b), (.value, c)]) ∧
    (encode (.mod a b c) = [11, a, b, c] ∧ (Instr.mod a b c).operands = [(.dest, a), (.value, b), (.value, c)]) ∧
    (encode (.and a b c) = [12, a, b, c] ∧ (Instr.and a b c).operands = [(.dest, a), (.value, b), (.value, c)]) ∧
    (encode (.or a b c) = [13, a, b, c] ∧ (Instr.or a b c).operands = [(.dest, a), (.value, b), (.value, c)]) ∧
    (encode (.not a b) = [14, a, b] ∧ (Instr.not a b).operands = [(.dest, a), (.value, b)]) ∧
    (encode (.rmem a b) = [15, a, b] ∧ (Instr.rmem a b).operands = [(.dest, a), (.value, b)]) ∧
    (encode (.wmem a b) = [16, a, b] ∧ (Instr.wmem a b).operands = [(.value, a), (.value, b)]) ∧
    (encode (.call a) = [17, a] ∧ (Instr.call a).operands = [(.value, a)]) ∧
    (encode .ret = [18] ∧ Instr.ret.operands = []) ∧
    (encode (.out a) = [19, a] ∧ (Instr.out a).operands = [(.value, a)]) ∧
    (encode (.in_ a) = [20, a] ∧ (Instr.in_ a).operands = [(.dest, a)]) ∧
    (encode .noop = [21] ∧ Instr.noop.operands = []) ∧
    (∀ u : Word, 22 ≤ u.toNat → layout u = none)

/-- Decoding the words of any instruction, whatever follows them, gives the instruction back and leaves the rest. -/
def Obligations.DecodeOfEncodeGivesInstructionBack : Prop :=
  ∀ (i : Instr) (rest : List Word), decode (encode i ++ rest) = .instruction i rest

/-- Whatever words decode to an instruction are that instruction's own words and the rest: no two encodings of one
instruction, and no bit ignored. -/
def Obligations.EncodeOfDecodeGivesWordsBack : Prop :=
  ∀ (words : List Word) (i : Instr) (rest : List Word), decode words = .instruction i rest → words = encode i ++ rest

/-- 30_encoding.md section 3, with the spec's own decisions D3 and D4: a raw opcode word is rejected as unassigned, one
word long, exactly when it is above 21; the words 32768..32775 among them. -/
def Obligations.OpcodesAbove21AreUnassigned : Prop :=
  ∀ (u : Word) (rest : List Word), decode (u :: rest) = .unassigned u rest ↔ 22 ≤ u.toNat

/-- The words and bytes of the spec's own examples (95_test_vectors.md) decode to what they stand for. -/
def Obligations.ExampleWordsDecode : Prop :=
  decode [9, 32769, 32769, 32768] = .instruction (.add 32769 32769 32768) [] ∧
  decode [1, 32768, 4] = .instruction (.set 32768 4) [] ∧
  decode [16, 100, 32769] = .instruction (.wmem 100 32769) [] ∧
  decode [20, 32768, 20, 32769, 0] = .instruction (.in_ 32768) [20, 32769, 0] ∧
  decode [18] = .instruction .ret [] ∧
  decodeBytes [0x0A, 0x00, 0x00, 0x80, 0x2C, 0x01, 0xC8, 0x00] = .instruction (.mult 32768 300 200) []

/-! ### A step -/

/-- 30_encoding.md section 4: while Running, a step runs the instruction whose words lie at pc; `exec` moves pc itself. -/
def Obligations.StepRunsInstructionAtPc : Prop :=
  ∀ (s : State) (i : Instr), s.run = .running → InstructionAt s i → step s = exec i s

/-- The spec's own decision D4 (40_control.md section 2, the unassigned opcodes): one word and no effect but pc + 1, or
`InvalidOpcode` under the fault policy. -/
def Obligations.UnassignedOpcodeIsNoopOrFault : Prop :=
  ∀ (s : State) (u : Word), s.run = .running → memRead s s.pc = .ok u → 22 ≤ u.toNat →
    (s.config.unknownOpcodePolicy = .noop → step s = .next { s with pc := s.pc + 1 }) ∧
    (s.config.unknownOpcodePolicy = .fault →
      step s = .next { s with run := .faulted (.invalidOpcode u) s.pc (some u) })

/-- The spec's own decision D2 (20_memory.md section 1): fetch faults at the first word above 32775, the opcode recorded if
it was fetched. -/
def Obligations.FetchFaultsAboveTheRegisters : Prop :=
  ∀ s : State, s.run = .running →
    (32776 ≤ s.pc.toNat → step s = .next { s with run := .faulted (.invalidAddress s.pc) s.pc none }) ∧
    (∀ (i : Instr) (opc : Word), memRead s s.pc = .ok opc → (encode i).head? = some opc →
      32776 < s.pc.toNat + (encode i).length →
      step s = .next { s with run := .faulted (.invalidAddress 32776) s.pc (some opc) })

/-- 10_state.md section 4, with the spec's own decision D19: no wrap of pc past an instruction that has been fetched. -/
def Obligations.PcPastAnInstructionDoesNotWrap : Prop :=
  ∀ (s : State) (i : Instr), InstructionAt s i →
    (s.pc + BitVec.ofNat 16 (encode i).length).toNat = s.pc.toNat + (encode i).length

/-- 70_reset_and_hazards.md section 4 and 93_implementation_defined.md I10: a Running core always has a next step, a waiting
one exactly when the host answers (the list of answers is the model's, log 4, log 6), an ended one never. -/
def Obligations.NextStepExistsUnlessEndedOrStuck : Prop :=
  ∀ s : State, (∃ t, step s = .next t) ↔ s.run = .running ∨ (s.run = .awaitingInput ∧ s.hostAnswers ≠ [])

/-- Why a step does not exist (the model's two names, log 6): the run has ended, or the host does not answer. -/
def Obligations.StopsAreEndedOrAwaitingHost : Prop :=
  ∀ s : State,
    (ended s = true → step s = .fault .runEnded) ∧
    (s.run = .awaitingInput → s.hostAnswers = [] → step s = .fault .awaitingHost)

/-- The invariant: canonical memory, a bounded stack within its bound, and a run state that tells the truth. -/
def Obligations.StepKeepsTheInvariant : Prop :=
  ∀ s t : State, Inv s → step s = .next t → Inv t

def Obligations.ResetMeetsTheInvariant : Prop := Inv State.reset

/-- Every accepted image starts from a state that meets the invariant. -/
def Obligations.BootedImageMeetsTheInvariant : Prop :=
  ∀ (bytes : List Byte) (s : State), bootImage bytes = .ok s → Inv s

/-- R205, from a state of the invariant (so that a waiting core stands on an `in`): the fault recorded with the pc of the
faulting instruction and, as R202 records it, its opcode word. The record has no opcode only where that word's address
does not exist: R202 with the spec's own decision D2. It is reported as a failure (R224), and no step comes after it:
that the step then answers the stop `runEnded` is the model's choice (log 6). -/
def Obligations.FaultEntryRecordsAndIsFinal : Prop :=
  ∀ (s t : State) (c : FaultCause) (p : Word) (o : Option Word),
    Inv s → step s = .next t → t.run = .faulted c p o →
      p = s.pc ∧
      (∀ op, o = some op → memRead s s.pc = .ok op) ∧
      (o = none → 32776 ≤ s.pc.toNat) ∧
      runOutcome t = some (.failure c p o) ∧
      step t = .fault .runEnded

/-- The spec's own decision D7 (60_exceptions.md section 4): a fault of a running core, whether of an instruction or of a
fetch, changes the run state alone; in the wait of an `in` it leaves memory, registers, pc, stack and output, and
a line taken from the host stays taken. That the queue too is as before in a running fault is the model's reading
(log 8). -/
def Obligations.FaultCommitsNothing : Prop :=
  (∀ (i : Instr) (s t : State) (c : FaultCause) (p : Word) (o : Option Word),
    s.run = .running → exec i s = .next t → t.run = .faulted c p o →
      t = { s with run := .faulted c s.pc o } ∧ o = (encode i).head?) ∧
  (∀ (s t : State) (c : FaultCause) (p : Word) (o : Option Word),
    step s = .next t → t.run = .faulted c p o →
      (s.run = .running → t = { s with run := .faulted c s.pc o }) ∧
      (s.run = .awaitingInput →
        ∃ r later, s.hostAnswers = r :: later ∧
          t.mem = s.mem ∧ t.regs = s.regs ∧ t.pc = s.pc ∧ t.stack = s.stack ∧ t.output = s.output ∧
          t.hostAnswers = later ∧ t.config = s.config ∧
          (c = .ioFailure → t.inputQueue = s.inputQueue) ∧
          (∀ l, r = .line l → t.inputQueue = (inputCodes s.config l).rest)))

/-- The spec's own decision D17 (60_exceptions.md section 4): a graceful halt changes the run state alone, keeps pc, is made by
opcode 0 or by 18 on an empty stack only, and is reported as a success. -/
def Obligations.GracefulHaltChangesRunStateAlone : Prop :=
  ∀ (s t : State) (k : HaltKind) (p : Word), step s = .next t → t.run = .halted k p →
    s.run = .running ∧ t = { s with run := .halted k s.pc } ∧ runOutcome t = some (.success k s.pc) ∧
    (k = .haltOpcode → memRead s s.pc = .ok 0) ∧
    (k = .returnEmptyStack → memRead s s.pc = .ok 18 ∧ s.stack = [])

/-! ### Rules about all instructions -/

/-- 10_state.md section 7: only `push`, `pop`, `call` and `ret` reach the stack; no other instruction reads or writes it. -/
def Obligations.OnlyStackInstructionsReachTheStack : Prop :=
  ∀ (i : Instr) (s : State) (other : List Word),
    (∀ a, i ≠ .push a) → (∀ a, i ≠ .pop a) → (∀ a, i ≠ .call a) → i ≠ .ret →
      exec i { s with stack := other } = onNext (fun t => { t with stack := other }) (exec i s)

/-- 10_state.md section 8: no instruction other than `in` reads or writes the input queue (nor the host's answers). -/
def Obligations.OnlyInReachesTheInputQueue : Prop :=
  ∀ (i : Instr) (s : State) (queue : List Word) (answers : List HostAnswer), (∀ a, i ≠ .in_ a) →
    exec i { s with inputQueue := queue, hostAnswers := answers } =
      onNext (fun t => { t with inputQueue := queue, hostAnswers := answers }) (exec i s)

/-- 10_state.md section 8: the core never reads its output back: what has been emitted before changes nothing of a step but
stands before what it emits. -/
def Obligations.OutputIsNeverReadBack : Prop :=
  ∀ (s : State) (earlier : List Byte),
    step { s with output := earlier ++ s.output } =
      onNext (fun t => { t with output := earlier ++ t.output }) (step s)

/-- 10_state.md section 8: the output grows by one byte per executed `out`, and by nothing else. No step changes a parameter
(log 2). -/
def Obligations.OutputGrowsOnlyByOut : Prop :=
  ∀ s t : State, step s = .next t →
    (t.output = s.output ∨ (s.run = .running ∧ memRead s s.pc = .ok 19 ∧ ∃ b, t.output = s.output ++ [b])) ∧
    t.config = s.config

/-- 60_exceptions.md section 9: a line is requested only by an `in` that finds the queue empty, and a step gives the host at
most one event. That events are read off two states is the model's choice (log 13). -/
def Obligations.LineRequestOnlyWhenQueueEmpty : Prop :=
  ∀ s t : State, step s = .next t →
    (HostEvent.lineRequest ∈ transitionEvents s t →
      s.run = .running ∧ s.inputQueue = [] ∧ memRead s s.pc = .ok 20 ∧ t = { s with run := .awaitingInput }) ∧
    (transitionEvents s t).length ≤ 1

/-- The spec's own decision D23 (20_memory.md section 4): a word that `wmem` writes over the next opcode word is the one the
next fetch reads; the `wmem` itself ran with the words it had fetched. -/
def Obligations.StoreIntoNextInstructionIsFetched : Prop :=
  ∀ (s : State) (a b v : Word), s.run = .running → InstructionAt s (.wmem a b) → s.pc.toNat ≤ 32772 →
    resolve s a = .ok (s.pc + 3) → resolve s b = .ok v →
      ∃ t, step s = .next t ∧ t.run = .running ∧ t.pc = s.pc + 3 ∧ memRead t t.pc = .ok v

/-! ### The stack -/

/-- R32: what a push puts on top a pop takes off again, the rest of the state as it was; on an empty stack a pop
fails, which `pop` and `ret` handle differently. -/
def Obligations.PopReturnsTheTopWord : Prop :=
  (∀ (s : State) (rest : List Word) (v : Word), s.stack = rest ++ [v] → pop s = some (v, { s with stack := rest })) ∧
  (∀ s : State, s.stack = [] → pop s = none ∧
    (∀ a, RaisesFault (.pop a) .stackUnderflow 3 s) ∧
    (∃ t p, exec .ret s = .next t ∧ t.run = .halted .returnEmptyStack p))

/-- The spec's own decision D18 (10_state.md section 7): a push appends its word at the top, or is `StackOverflow` exactly when
a bounded stack is full. -/
def Obligations.PushAppendsUnlessFull : Prop :=
  ∀ (s : State) (v : Word),
    (s.config.stackCapacity ≠ some s.stack.length → push v s = .ok { s with stack := s.stack ++ [v] }) ∧
    (s.config.stackCapacity = some s.stack.length → push v s = .error .stackOverflow)

/-- 95_test_vectors.md L1.5: a `ret` run straight after a `call` goes on after the `call`, with the stack as before it. -/
def Obligations.RetAfterCallResumes : Prop :=
  ∀ (s : State) (a va : Word), resolve s a = .ok va → s.config.stackCapacity ≠ some s.stack.length →
    ∃ t, exec (.call a) s = .next t ∧ t.pc = va ∧ exec .ret t = .next { s with pc := s.pc + 2 }

/-! ### Control -/

/-- 40_control.md section 2 with the spec's own decision D17: `halt` ends the run at its own address and changes nothing else. -/
def Obligations.HaltEndsTheRunInPlace : Prop :=
  encode .halt = [0] ∧ ∀ s : State, exec .halt s = .next { s with run := .halted .haltOpcode s.pc }

/-- R107: `noop` advances pc by one and changes nothing else. -/
def Obligations.NoopOnlyAdvances : Prop :=
  encode .noop = [21] ∧ ∀ s : State, exec .noop s = .next { s with pc := s.pc + 1 }

/-- R102: `jmp` sets pc to the resolved target and changes nothing else. -/
def Obligations.JmpSetsPcToTarget : Prop :=
  ∀ (a : Word) (s : State),
    encode (.jmp a) = [6, a] ∧
    (∀ va, resolve s a = .ok va → exec (.jmp a) s = .next { s with pc := va }) ∧
    (32776 ≤ a.toNat → RaisesFault (.jmp a) (.invalidOperand a) 6 s)

/-- 40_control.md section 2, `jt`, with the spec's own decision D8 (both operands are resolved even when not taken). -/
def Obligations.JtJumpsOnNonZero : Prop :=
  ∀ (a b : Word) (s : State),
    encode (.jt a b) = [7, a, b] ∧
    (∀ va vb, resolve s a = .ok va → resolve s b = .ok vb →
      exec (.jt a b) s = .next { s with pc := if va.toNat = 0 then s.pc + 3 else vb }) ∧
    (32776 ≤ a.toNat → RaisesFault (.jt a b) (.invalidOperand a) 7 s) ∧
    (a.toNat ≤ 32775 → 32776 ≤ b.toNat →
      RaisesFault (.jt a b) (.invalidOperand b) 7 s)

/-- 40_control.md section 2, `jf`, with the spec's own decision D8 (both operands are resolved even when not taken). -/
def Obligations.JfJumpsOnZero : Prop :=
  ∀ (a b : Word) (s : State),
    encode (.jf a b) = [8, a, b] ∧
    (∀ va vb, resolve s a = .ok va → resolve s b = .ok vb →
      exec (.jf a b) s = .next { s with pc := if va.toNat = 0 then vb else s.pc + 3 }) ∧
    (32776 ≤ a.toNat → RaisesFault (.jf a b) (.invalidOperand a) 8 s) ∧
    (a.toNat ≤ 32775 → 32776 ≤ b.toNat →
      RaisesFault (.jf a b) (.invalidOperand b) 8 s)

/-- R105: `call` pushes pc + 2 and sets pc to the resolved target; nothing else changes. -/
def Obligations.CallPushesReturnAddress : Prop :=
  ∀ (a : Word) (s : State),
    encode (.call a) = [17, a] ∧
    (∀ va, resolve s a = .ok va → s.config.stackCapacity ≠ some s.stack.length →
      exec (.call a) s = .next { s with stack := s.stack ++ [s.pc + 2], pc := va }) ∧
    (32776 ≤ a.toNat →
      ∃ t, exec (.call a) s = .next t ∧ t.run = .faulted (.invalidOperand a) s.pc (some 17) ∧ t.stack = s.stack) ∧
    (a.toNat ≤ 32775 → s.config.stackCapacity = some s.stack.length →
      RaisesFault (.call a) .stackOverflow 17 s)

/-- 40_control.md section 2, `ret`, with the spec's own decision D17: pc becomes the raw popped word; on an empty stack the run
ends gracefully in place. -/
def Obligations.RetPopsOrHalts : Prop :=
  encode .ret = [18] ∧
  (∀ (s : State) (rest : List Word) (v : Word), s.stack = rest ++ [v] →
    exec .ret s = .next { s with stack := rest, pc := v }) ∧
  (∀ s : State, s.stack = [] → exec .ret s = .next { s with run := .halted .returnEmptyStack s.pc })

/-! ### Data movement -/

/-- R120: `set` writes the resolved value, unmasked, at the dest. -/
def Obligations.SetWritesResolvedValue : Prop := WritesResultOfOne .set 1 (fun vb r => r = vb)

/-- 41_data_movement.md section 1, `push`, with the spec's own decision D5: the operand is resolved. -/
def Obligations.PushPushesResolvedOperand : Prop :=
  ∀ (a : Word) (s : State),
    encode (.push a) = [2, a] ∧
    (∀ va, resolve s a = .ok va → s.config.stackCapacity ≠ some s.stack.length →
      exec (.push a) s = .next { s with stack := s.stack ++ [va], pc := s.pc + 2 }) ∧
    (32776 ≤ a.toNat → RaisesFault (.push a) (.invalidOperand a) 2 s) ∧
    (a.toNat ≤ 32775 → s.config.stackCapacity = some s.stack.length →
      RaisesFault (.push a) .stackOverflow 2 s)

/-- R122: `pop` writes the top word at the dest and removes it; `StackUnderflow` comes before `InvalidAddress`, and a
fault leaves the stack. -/
def Obligations.PopWritesTheTopWord : Prop :=
  ∀ (a : Word) (s : State),
    encode (.pop a) = [3, a] ∧
    (∀ rest v, s.stack = rest ++ [v] → a.toNat ≤ 32775 →
      ∃ t, exec (.pop a) s = .next t ∧ OnlyWrote a v s t ∧ t.stack = rest ∧ t.pc = s.pc + 2 ∧
        t.inputQueue = s.inputQueue ∧ t.output = s.output ∧ t.run = s.run ∧ t.hostAnswers = s.hostAnswers ∧
        t.config = s.config) ∧
    (s.stack = [] →
      ∃ t, exec (.pop a) s = .next t ∧ t.run = .faulted .stackUnderflow s.pc (some 3) ∧ t.stack = s.stack) ∧
    (s.stack ≠ [] → 32776 ≤ a.toNat →
      ∃ t, exec (.pop a) s = .next t ∧ t.run = .faulted (.invalidAddress a) s.pc (some 3) ∧ t.stack = s.stack)

/-- 41_data_movement.md section 1, `rmem`, with the spec's own decision D9: one resolution, then the unified read. -/
def Obligations.RmemCopiesAddressedWord : Prop :=
  ∀ (a b : Word) (s : State),
    encode (.rmem a b) = [15, a, b] ∧
    (∀ vb v, resolve s b = .ok vb → memRead s vb = .ok v → a.toNat ≤ 32775 →
      ∃ t, exec (.rmem a b) s = .next t ∧ OnlyWrote a v s t ∧ SameRest s t ∧ t.pc = s.pc + 3) ∧
    (32776 ≤ b.toNat → RaisesFault (.rmem a b) (.invalidOperand b) 15 s) ∧
    (∀ vb, resolve s b = .ok vb → 32776 ≤ vb.toNat →
      RaisesFault (.rmem a b) (.invalidAddress vb) 15 s) ∧
    (∀ vb, resolve s b = .ok vb → vb.toNat ≤ 32775 → 32776 ≤ a.toNat →
      RaisesFault (.rmem a b) (.invalidAddress a) 15 s)

/-- 41_data_movement.md section 1, `wmem`, with the spec's own decision D9: the store goes to the resolved first operand. -/
def Obligations.WmemStoresAtResolvedAddress : Prop :=
  ∀ (a b : Word) (s : State),
    encode (.wmem a b) = [16, a, b] ∧
    (∀ va vb, resolve s a = .ok va → resolve s b = .ok vb → va.toNat ≤ 32775 →
      ∃ t, exec (.wmem a b) s = .next t ∧ OnlyWrote va vb s t ∧ SameRest s t ∧ t.pc = s.pc + 3) ∧
    (32776 ≤ a.toNat → RaisesFault (.wmem a b) (.invalidOperand a) 16 s) ∧
    (a.toNat ≤ 32775 → 32776 ≤ b.toNat →
      RaisesFault (.wmem a b) (.invalidOperand b) 16 s) ∧
    (∀ va, resolve s a = .ok va → b.toNat ≤ 32775 → 32776 ≤ va.toNat →
      RaisesFault (.wmem a b) (.invalidAddress va) 16 s)

/-! ### Comparison -/

/-- 42_compare.md, `eq`, with the spec's own decision D14: 1 if the whole 16-bit values are equal, else 0. -/
def Obligations.EqWritesEqualityOfWords : Prop :=
  WritesResultOfTwo .eq 4 (fun vb vc r => r.toNat = if vb.toNat = vc.toNat then 1 else 0)

/-- 42_compare.md, `gt`, with the spec's own decision D14: 1 if vb > vc, unsigned on 16 bits, else 0. -/
def Obligations.GtWritesUnsignedComparison : Prop :=
  WritesResultOfTwo .gt 5 (fun vb vc r => r.toNat = if vc.toNat < vb.toNat then 1 else 0)

/-! ### Arithmetic and logic -/

/-- R152: `add` writes the exact sum modulo 32768. -/
def Obligations.AddWritesSumModulo : Prop :=
  WritesResultOfTwo .add 9 (fun vb vc r => r.toNat = (vb.toNat + vc.toNat) % 32768)

/-- R153: `mult` writes the exact product modulo 32768. -/
def Obligations.MultWritesProductModulo : Prop :=
  WritesResultOfTwo .mult 10 (fun vb vc r => r.toNat = (vb.toNat * vc.toNat) % 32768)

/-- 43_arith_logic.md section 2, `mod`, with the spec's own decision D11 (the remainder is reduced modulo 32768): a zero divisor
faults before the dest is looked at. -/
def Obligations.ModWritesRemainder : Prop :=
  ∀ (a b c : Word) (s : State),
    encode (.mod a b c) = [11, a, b, c] ∧
    (∀ vb vc, resolve s b = .ok vb → resolve s c = .ok vc → vc.toNat ≠ 0 → a.toNat ≤ 32775 →
      ∃ t r, exec (.mod a b c) s = .next t ∧ r.toNat = (vb.toNat % vc.toNat) % 32768 ∧ OnlyWrote a r s t ∧
        SameRest s t ∧ t.pc = s.pc + 4) ∧
    (32776 ≤ b.toNat → RaisesFault (.mod a b c) (.invalidOperand b) 11 s) ∧
    (b.toNat ≤ 32775 → 32776 ≤ c.toNat →
      RaisesFault (.mod a b c) (.invalidOperand c) 11 s) ∧
    (∀ vc, b.toNat ≤ 32775 → resolve s c = .ok vc → vc.toNat = 0 →
      RaisesFault (.mod a b c) .divideByZero 11 s) ∧
    (∀ vc, b.toNat ≤ 32775 → resolve s c = .ok vc → vc.toNat ≠ 0 → 32776 ≤ a.toNat →
      RaisesFault (.mod a b c) (.invalidAddress a) 11 s)

/-- 43_arith_logic.md section 2, `and`, with the spec's own decision D12 (not reduced): the 16-bit AND, bit by bit. -/
def Obligations.AndWritesBitwiseAnd : Prop :=
  WritesResultOfTwo .and 12 (fun vb vc r => ∀ n, n < 16 → r.getLsbD n = (vb.getLsbD n && vc.getLsbD n))

/-- 43_arith_logic.md section 2, `or`, with the spec's own decision D12 (not reduced): the 16-bit OR, bit by bit. -/
def Obligations.OrWritesBitwiseOr : Prop :=
  WritesResultOfTwo .or 13 (fun vb vc r => ∀ n, n < 16 → r.getLsbD n = (vb.getLsbD n || vc.getLsbD n))

/-- 43_arith_logic.md section 2, `not`, with the spec's own decision D10: bits 0..14 complemented, bit 15 clear; for a value up
to 32767 the result is 32767 minus it. -/
def Obligations.NotWritesFifteenBitComplement : Prop :=
  WritesResultOfOne .not 14 (fun vb r =>
    (∀ n, n < 15 → r.getLsbD n = !vb.getLsbD n) ∧ r.toNat ≤ 32767 ∧
    (vb.toNat ≤ 32767 → r.toNat = 32767 - vb.toNat))

/-! ### Character input and output -/

/-- R171: `out` emits the low byte of the resolved operand and changes nothing else but pc; a bad operand emits nothing. -/
def Obligations.OutEmitsLowByte : Prop :=
  ∀ (a : Word) (s : State),
    encode (.out a) = [19, a] ∧
    (∀ va, resolve s a = .ok va →
      ∃ b : Byte, b.toNat = va.toNat % 256 ∧
        exec (.out a) s = .next { s with output := s.output ++ [b], pc := s.pc + 2 }) ∧
    (32776 ≤ a.toNat →
      ∃ t, exec (.out a) s = .next t ∧ t.run = .faulted (.invalidOperand a) s.pc (some 19) ∧ t.output = s.output)

/-- 44_io.md section 2, `in` with codes queued: it writes the first, unmasked, and takes it off the queue. If the write faults
the queue is as before: the model's reading of the precise fault (log 8). With none queued it requests a line and
waits, all state but the run state as it was (R222's own event; the wait as a state of its own is log 5). -/
def Obligations.InTakesQueuedCodeOrWaits : Prop :=
  ∀ (a : Word) (s : State),
    encode (.in_ a) = [20, a] ∧
    (∀ code rest, s.inputQueue = code :: rest → a.toNat ≤ 32775 →
      ∃ t, exec (.in_ a) s = .next t ∧ OnlyWrote a code s t ∧ t.inputQueue = rest ∧ t.pc = s.pc + 2 ∧
        t.stack = s.stack ∧ t.output = s.output ∧ t.run = s.run ∧ t.hostAnswers = s.hostAnswers ∧
        t.config = s.config) ∧
    (s.inputQueue ≠ [] → 32776 ≤ a.toNat →
      exec (.in_ a) s = .next { s with run := .faulted (.invalidAddress a) s.pc (some 20) }) ∧
    (s.inputQueue = [] → exec (.in_ a) s = .next { s with run := .awaitingInput })

/-- 44_io.md section 2 and 60_exceptions.md section 9: the host's answer ends the waiting `in` at pc. A line: its first code is
written at the dest, the others are queued, the core runs on. A line with a bad dest: `InvalidAddress`, the line
taken (the spec's own decision D7). End-of-stream or a read failure: `IOFailure`. -/
def Obligations.HostAnswerEndsTheWait : Prop :=
  ∀ (a : Word) (s : State) (later : List HostAnswer), s.run = .awaitingInput → InstructionAt s (.in_ a) →
    (∀ l, s.hostAnswers = .line l :: later → a.toNat ≤ 32775 →
      ∃ t, step s = .next t ∧ OnlyWrote a (inputCodes s.config l).first s t ∧
        t.inputQueue = (inputCodes s.config l).rest ∧ t.run = .running ∧ t.pc = s.pc + 2 ∧ t.stack = s.stack ∧
        t.output = s.output ∧ t.hostAnswers = later ∧ t.config = s.config) ∧
    (∀ l, s.hostAnswers = .line l :: later → 32776 ≤ a.toNat →
      step s = .next { s with
        run := .faulted (.invalidAddress a) s.pc (some 20)
        inputQueue := (inputCodes s.config l).rest
        hostAnswers := later }) ∧
    (s.hostAnswers = .endOfStream :: later ∨ s.hostAnswers = .readFailure :: later →
      step s = .next { s with run := .faulted .ioFailure s.pc (some 20), hostAnswers := later })

/-- 44_io.md section 2 with the spec's own decision D16, in three clauses. Whatever the parameter: the codes are one
non-empty piece per character in order; the piece of an ASCII character, in a mixed line too, is its ASCII code alone;
where `inputDecode` lists the line with as many pieces as it has characters outside ASCII, those are their pieces. A
line it does not list: one code per byte, the byte's value. A line of ASCII characters alone: one code per character,
listed or not. Characters as bytes and the parameter as a list are the model's (log 3). -/
def Obligations.LineDecodesToCharacterCodes : Prop :=
  ∀ (cfg : Config) (l : Line),
    (∃ pieces : List Codes,
      codeWords (inputCodes cfg l) = (pieces.map codeWords).flatten ∧
      List.Forall₂ (fun c p => c.rest = [] → c.first.toNat < 128 → p.rest = [] ∧ p.first.toNat = c.first.toNat)
        (lineChars l) pieces ∧
      (∀ given, cfg.inputDecode.lookup l = some given →
        given.length = ((lineChars l).filter (fun c => !isAscii c)).length →
          (((lineChars l).zip pieces).filter (fun p => !isAscii p.1)).map Prod.snd = given)) ∧
    (cfg.inputDecode.lookup l = none →
      (codeWords (inputCodes cfg l)).map BitVec.toNat
        = ((lineChars l).map (fun c => (characterBytes c).map BitVec.toNat)).flatten) ∧
    ((∀ c ∈ lineChars l, c.rest = [] ∧ c.first.toNat < 128) →
      (codeWords (inputCodes cfg l)).map BitVec.toNat = (lineChars l).map (fun c => c.first.toNat))

/-- 44_io.md section 2 with the spec's own decision D15: the lines of a stream of characters are the stream cut after
each newline; each is framed, only the last can lack its newline, and end-of-stream is answered after them. -/
def Obligations.StreamIsFramedIntoLines : Prop :=
  ∀ chars : List Character,
    ((linesOf chars).map lineChars).flatten = chars ∧
    (∀ l ∈ linesOf chars, framed l) ∧
    (∀ l ∈ (linesOf chars).dropLast, (lineChars l).getLast? = some newline) ∧
    answersOfStream chars = (linesOf chars).map HostAnswer.line ++ [.endOfStream]
end

