-- ==== Sys2Proof/Laws/CharIo.lean ====
section
/-! SUPPORT. The decoding of a host's line (44_io.md rule R175): what each function answers, said once. -/

namespace Sys2Proof.Laws

open Sys2Proof.Machine

theorem isAscii_iff (c : Character) : isAscii c = true ↔ c.rest = [] ∧ c.first.toNat < 128 := by
  simp [isAscii]

/-- An ASCII character has its ASCII code, and takes none of what the parameter gives. -/
theorem characterCodes_ascii {c : Character} (h : isAscii c = true) (given : List Codes) :
    characterCodes c given = ({ first := c.first.setWidth 16, rest := [] }, given) := by
  simp [characterCodes, h, byteCodes, ((isAscii_iff c).mp h).1]

/-- Another character takes the next codes that the parameter gives. -/
theorem characterCodes_given {c : Character} (h : isAscii c = false) (codes : Codes) (later : List Codes) :
    characterCodes c (codes :: later) = (codes, later) := by
  simp [characterCodes, h]

/-- Where the parameter gives nothing, every character has the codes of its bytes. -/
theorem characterCodes_default (c : Character) : characterCodes c [] = (byteCodes c, []) := by
  unfold characterCodes
  split <;> rfl

theorem codeWords_byteCodes (c : Character) :
    codeWords (byteCodes c) = (characterBytes c).map (fun b => b.setWidth 16) := rfl

@[simp] theorem decodeCharacters_nil (given : List Codes) : decodeCharacters [] given = [] := rfl

@[simp] theorem decodeCharacters_cons (c : Character) (cs : List Character) (given : List Codes) :
    decodeCharacters (c :: cs) given =
      codeWords (characterCodes c given).1 ++ decodeCharacters cs (characterCodes c given).2 := rfl

/-- By default the codes of characters are the values of their bytes. -/
theorem decodeCharacters_default (cs : List Character) :
    decodeCharacters cs [] = (cs.map (fun c => (characterBytes c).map (fun b => b.setWidth 16))).flatten := by
  induction cs with
  | nil => rfl
  | cons c cs ih => simp [characterCodes_default, codeWords_byteCodes, ih]

/-- What a line is queued as: its characters decoded with what the parameter gives for it. -/
theorem codeWords_inputCodes (cfg : Config) (l : Line) :
    codeWords (inputCodes cfg l) = decodeCharacters (lineChars l) (givenCodes cfg l) := rfl

end Sys2Proof.Laws
end

