-- ==== Sys2Proof/Laws/Decode.lean ====
section
/-! SUPPORT. The opcode map as lemmas: which opcode words are assigned. -/

namespace Sys2Proof

/-- An opcode word above 21 is unassigned. -/
theorem layout_unassigned {u : Word} (h : 22 ≤ u.toNat) : layout u = none := by
  unfold layout
  split <;> first | rfl | omega

/-- An opcode word up to 21 is assigned. -/
theorem layout_assigned {u : Word} (h : u.toNat < 22) : ∃ shape, layout u = some shape := by
  unfold layout
  interval_cases u.toNat <;> exact ⟨_, rfl⟩

/-- A word at the start of the list that is above 21 is rejected by name. -/
theorem decode_unassigned {u : Word} (h : 22 ≤ u.toNat) (rest : List Word) :
    decode (u :: rest) = .unassigned u rest := by
  simp [decode, layout_unassigned h]

/-- The opcode map read the other way: what an assigned opcode word makes encodes to that word first. -/
theorem layout_encode {u : Word} {shape : Layout} (h : layout u = some shape) :
    match shape with
    | .w1 i => encode i = [u]
    | .w2 mk => ∀ a, encode (mk a) = [u, a]
    | .w3 mk => ∀ a b, encode (mk a b) = [u, a, b]
    | .w4 mk => ∀ a b c, encode (mk a b c) = [u, a, b, c] := by
  have key : ∀ n, u.toNat = n → u = BitVec.ofNat 16 n := fun n hn => by
    apply BitVec.eq_of_toNat_eq
    simp [← hn]
  unfold layout at h
  split at h <;> cases h
  all_goals
    rename_i hu
    simp [encode, key _ hu]

/-- A little-endian pair of bytes as a number (R58). -/
theorem littleEndian_toNat (lo hi : Byte) : (hi ++ lo : Word).toNat = lo.toNat + 256 * hi.toNat := by
  rw [show (hi ++ lo : Word).toNat = hi.toNat <<< 8 ||| lo.toNat from BitVec.toNat_append ..,
    ← Nat.shiftLeft_add_eq_or_of_lt lo.isLt, Nat.shiftLeft_eq]
  omega

end Sys2Proof
end

