-- ==== Sys2Proof/Laws/State.lean ====
section
/-! SUPPORT. What each update of the state leaves in each field: one lemma per field per update. -/

namespace Sys2Proof.Machine

@[simp] theorem advance_mem (n : Word) (s : State) : (advance n s).mem = s.mem := rfl
@[simp] theorem advance_regs (n : Word) (s : State) : (advance n s).regs = s.regs := rfl
@[simp] theorem advance_pc (n : Word) (s : State) : (advance n s).pc = s.pc + n := rfl
@[simp] theorem advance_stack (n : Word) (s : State) : (advance n s).stack = s.stack := rfl
@[simp] theorem advance_inputQueue (n : Word) (s : State) : (advance n s).inputQueue = s.inputQueue := rfl
@[simp] theorem advance_output (n : Word) (s : State) : (advance n s).output = s.output := rfl
@[simp] theorem advance_run (n : Word) (s : State) : (advance n s).run = s.run := rfl
@[simp] theorem advance_hostAnswers (n : Word) (s : State) : (advance n s).hostAnswers = s.hostAnswers := rfl
@[simp] theorem advance_config (n : Word) (s : State) : (advance n s).config = s.config := rfl

@[simp] theorem jumpTo_mem (v : Word) (s : State) : (jumpTo v s).mem = s.mem := rfl
@[simp] theorem jumpTo_regs (v : Word) (s : State) : (jumpTo v s).regs = s.regs := rfl
@[simp] theorem jumpTo_pc (v : Word) (s : State) : (jumpTo v s).pc = v := rfl
@[simp] theorem jumpTo_stack (v : Word) (s : State) : (jumpTo v s).stack = s.stack := rfl
@[simp] theorem jumpTo_inputQueue (v : Word) (s : State) : (jumpTo v s).inputQueue = s.inputQueue := rfl
@[simp] theorem jumpTo_output (v : Word) (s : State) : (jumpTo v s).output = s.output := rfl
@[simp] theorem jumpTo_run (v : Word) (s : State) : (jumpTo v s).run = s.run := rfl
@[simp] theorem jumpTo_hostAnswers (v : Word) (s : State) : (jumpTo v s).hostAnswers = s.hostAnswers := rfl
@[simp] theorem jumpTo_config (v : Word) (s : State) : (jumpTo v s).config = s.config := rfl

@[simp] theorem emit_mem (b : Byte) (s : State) : (emit b s).mem = s.mem := rfl
@[simp] theorem emit_regs (b : Byte) (s : State) : (emit b s).regs = s.regs := rfl
@[simp] theorem emit_pc (b : Byte) (s : State) : (emit b s).pc = s.pc := rfl
@[simp] theorem emit_stack (b : Byte) (s : State) : (emit b s).stack = s.stack := rfl
@[simp] theorem emit_inputQueue (b : Byte) (s : State) : (emit b s).inputQueue = s.inputQueue := rfl
@[simp] theorem emit_output (b : Byte) (s : State) : (emit b s).output = s.output ++ [b] := rfl
@[simp] theorem emit_run (b : Byte) (s : State) : (emit b s).run = s.run := rfl
@[simp] theorem emit_hostAnswers (b : Byte) (s : State) : (emit b s).hostAnswers = s.hostAnswers := rfl
@[simp] theorem emit_config (b : Byte) (s : State) : (emit b s).config = s.config := rfl

@[simp] theorem raiseFault_mem (c : FaultCause) (o : Option Word) (s : State) : (raiseFault c o s).mem = s.mem := rfl
@[simp] theorem raiseFault_regs (c : FaultCause) (o : Option Word) (s : State) : (raiseFault c o s).regs = s.regs := rfl
@[simp] theorem raiseFault_pc (c : FaultCause) (o : Option Word) (s : State) : (raiseFault c o s).pc = s.pc := rfl
@[simp] theorem raiseFault_stack (c : FaultCause) (o : Option Word) (s : State) : (raiseFault c o s).stack = s.stack := rfl
@[simp] theorem raiseFault_inputQueue (c : FaultCause) (o : Option Word) (s : State) : (raiseFault c o s).inputQueue = s.inputQueue := rfl
@[simp] theorem raiseFault_output (c : FaultCause) (o : Option Word) (s : State) : (raiseFault c o s).output = s.output := rfl
@[simp] theorem raiseFault_run (c : FaultCause) (o : Option Word) (s : State) : (raiseFault c o s).run = .faulted c s.pc o := rfl
@[simp] theorem raiseFault_hostAnswers (c : FaultCause) (o : Option Word) (s : State) : (raiseFault c o s).hostAnswers = s.hostAnswers := rfl
@[simp] theorem raiseFault_config (c : FaultCause) (o : Option Word) (s : State) : (raiseFault c o s).config = s.config := rfl

@[simp] theorem haltRun_mem (k : HaltKind) (s : State) : (haltRun k s).mem = s.mem := rfl
@[simp] theorem haltRun_regs (k : HaltKind) (s : State) : (haltRun k s).regs = s.regs := rfl
@[simp] theorem haltRun_pc (k : HaltKind) (s : State) : (haltRun k s).pc = s.pc := rfl
@[simp] theorem haltRun_stack (k : HaltKind) (s : State) : (haltRun k s).stack = s.stack := rfl
@[simp] theorem haltRun_inputQueue (k : HaltKind) (s : State) : (haltRun k s).inputQueue = s.inputQueue := rfl
@[simp] theorem haltRun_output (k : HaltKind) (s : State) : (haltRun k s).output = s.output := rfl
@[simp] theorem haltRun_run (k : HaltKind) (s : State) : (haltRun k s).run = .halted k s.pc := rfl
@[simp] theorem haltRun_hostAnswers (k : HaltKind) (s : State) : (haltRun k s).hostAnswers = s.hostAnswers := rfl
@[simp] theorem haltRun_config (k : HaltKind) (s : State) : (haltRun k s).config = s.config := rfl

@[simp] theorem hostAnswer_mem (r : HostAnswer) (s : State) : (hostAnswer r s).mem = s.mem := rfl
@[simp] theorem hostAnswer_regs (r : HostAnswer) (s : State) : (hostAnswer r s).regs = s.regs := rfl
@[simp] theorem hostAnswer_pc (r : HostAnswer) (s : State) : (hostAnswer r s).pc = s.pc := rfl
@[simp] theorem hostAnswer_stack (r : HostAnswer) (s : State) : (hostAnswer r s).stack = s.stack := rfl
@[simp] theorem hostAnswer_inputQueue (r : HostAnswer) (s : State) : (hostAnswer r s).inputQueue = s.inputQueue := rfl
@[simp] theorem hostAnswer_output (r : HostAnswer) (s : State) : (hostAnswer r s).output = s.output := rfl
@[simp] theorem hostAnswer_run (r : HostAnswer) (s : State) : (hostAnswer r s).run = s.run := rfl
@[simp] theorem hostAnswer_hostAnswers (r : HostAnswer) (s : State) : (hostAnswer r s).hostAnswers = s.hostAnswers ++ [r] := rfl
@[simp] theorem hostAnswer_config (r : HostAnswer) (s : State) : (hostAnswer r s).config = s.config := rfl

end Sys2Proof.Machine
end

