-- ==== Sys2Proof/Laws/Memory.lean ====
section
/-! SUPPORT. Memory as a function: read after write, and the canonical form kept by every operation. -/

namespace Sys2Proof.Machine

@[simp] theorem Memory.read_nil (a : Nat) : Memory.read [] a = Memory.unlisted := rfl

theorem Memory.read_cons (k : Nat) (w : Word) (m : Memory) (a : Nat) :
    Memory.read ((k, w) :: m) a = if k = a then w else Memory.read m a := rfl

theorem Memory.erase_cons (k : Nat) (w : Word) (m : Memory) (a : Nat) :
    Memory.erase ((k, w) :: m) a = if k = a then Memory.erase m a else (k, w) :: Memory.erase m a := by
  by_cases h : k = a <;> simp [Memory.erase, h]

theorem Memory.read_erase_same (m : Memory) (a : Nat) : Memory.read (Memory.erase m a) a = Memory.unlisted := by
  induction m with
  | nil => rfl
  | cons c m ih =>
    obtain ⟨k, w⟩ := c
    by_cases h : k = a <;> simp [Memory.erase_cons, Memory.read_cons, h, ih]

theorem Memory.read_erase_other (m : Memory) {a d : Nat} (h : d ≠ a) :
    Memory.read (Memory.erase m a) d = Memory.read m d := by
  induction m with
  | nil => rfl
  | cons c m ih =>
    obtain ⟨k, w⟩ := c
    by_cases hk : k = a
    · subst hk; simp [Memory.erase_cons, Memory.read_cons, ih, Ne.symm h]
    · simp [Memory.erase_cons, Memory.read_cons, hk, ih]

theorem Memory.read_insert_other (m : Memory) (v : Word) {a d : Nat} (h : d ≠ a) :
    Memory.read (Memory.insert m a v) d = Memory.read m d := by
  induction m with
  | nil => simp [Memory.insert, Memory.read_cons, Ne.symm h]
  | cons c m ih =>
    obtain ⟨k, w⟩ := c
    by_cases hk : a < k <;> simp [Memory.insert, Memory.read_cons, hk, ih, Ne.symm h]

theorem Memory.read_insert_same (m : Memory) (a : Nat) (v : Word) (h : ∀ c ∈ m, c.1 ≠ a) :
    Memory.read (Memory.insert m a v) a = v := by
  induction m with
  | nil => simp [Memory.insert, Memory.read_cons]
  | cons c m ih =>
    obtain ⟨k, w⟩ := c
    have hne : k ≠ a := h (k, w) (by simp)
    have ih' := ih (fun c hc => h c (by simp [hc]))
    by_cases hk : a < k <;> simp [Memory.insert, Memory.read_cons, hk, hne, ih']

theorem Memory.erase_keys (m : Memory) (a : Nat) : ∀ c ∈ Memory.erase m a, c.1 ≠ a := by
  intro c hc
  simpa [Memory.erase] using (List.mem_filter.mp hc).2

/-- The word just written is read back. -/
@[simp] theorem Memory.read_write_same (m : Memory) (a : Nat) (v : Word) :
    Memory.read (Memory.write m a v) a = v := by
  by_cases h : v = Memory.unlisted
  · simp [Memory.write, h, Memory.read_erase_same]
  · simp [Memory.write, h, Memory.read_insert_same _ _ _ (Memory.erase_keys m a)]

/-- A write leaves every other address alone. -/
theorem Memory.read_write_other (m : Memory) (v : Word) {a d : Nat} (h : d ≠ a) :
    Memory.read (Memory.write m a v) d = Memory.read m d := by
  by_cases hv : v = Memory.unlisted
  · simp [Memory.write, hv, Memory.read_erase_other m h]
  · simp [Memory.write, hv, Memory.read_insert_other _ v h, Memory.read_erase_other m h]

/-! ### The canonical form -/

@[simp] theorem Memory.wfFrom_nil (lo : Nat) : Memory.wfFrom lo [] = true := rfl

theorem Memory.wfFrom_cons (lo k : Nat) (w : Word) (m : Memory) :
    Memory.wfFrom lo ((k, w) :: m) = true ↔
      lo ≤ k ∧ k < memorySize ∧ w ≠ Memory.unlisted ∧ Memory.wfFrom (k + 1) m = true := by
  simp [Memory.wfFrom, and_assoc]

theorem Memory.wfFrom_mono {lo lo' : Nat} (h : lo' ≤ lo) {m : Memory} (hm : Memory.wfFrom lo m = true) :
    Memory.wfFrom lo' m = true := by
  cases m with
  | nil => rfl
  | cons c m =>
    obtain ⟨k, w⟩ := c
    rw [Memory.wfFrom_cons] at hm ⊢
    exact ⟨le_trans h hm.1, hm.2⟩

theorem Memory.wfFrom_erase (m : Memory) (a : Nat) :
    ∀ lo, Memory.wfFrom lo m = true → Memory.wfFrom lo (Memory.erase m a) = true := by
  induction m with
  | nil => intro lo _; rfl
  | cons c m ih =>
    obtain ⟨k, w⟩ := c
    intro lo h
    rw [Memory.wfFrom_cons] at h
    by_cases hk : k = a
    · simp only [Memory.erase_cons, hk, if_true]
      exact Memory.wfFrom_mono (by omega) (ih _ h.2.2.2)
    · simp only [Memory.erase_cons, hk, if_false]
      exact (Memory.wfFrom_cons _ _ _ _).mpr ⟨h.1, h.2.1, h.2.2.1, ih _ h.2.2.2⟩

theorem Memory.wfFrom_insert (m : Memory) {a : Nat} {v : Word} (ha : a < memorySize)
    (hv : v ≠ Memory.unlisted) (hkeys : ∀ c ∈ m, c.1 ≠ a) :
    ∀ lo, lo ≤ a → Memory.wfFrom lo m = true → Memory.wfFrom lo (Memory.insert m a v) = true := by
  induction m with
  | nil =>
    intro lo hlo _
    exact (Memory.wfFrom_cons _ _ _ _).mpr ⟨hlo, ha, hv, rfl⟩
  | cons c m ih =>
    obtain ⟨k, w⟩ := c
    intro lo hlo h
    rw [Memory.wfFrom_cons] at h
    have hne : k ≠ a := hkeys (k, w) (by simp)
    by_cases hk : a < k
    · simp only [Memory.insert, hk, if_true]
      exact (Memory.wfFrom_cons _ _ _ _).mpr
        ⟨hlo, ha, hv, (Memory.wfFrom_cons _ _ _ _).mpr ⟨hk, h.2.1, h.2.2.1, h.2.2.2⟩⟩
    · simp only [Memory.insert, hk, if_false]
      refine (Memory.wfFrom_cons _ _ _ _).mpr ⟨h.1, h.2.1, h.2.2.1, ?_⟩
      exact ih (fun c hc => hkeys c (by simp [hc])) _ (by omega) h.2.2.2

/-- A write in range keeps the canonical form. -/
theorem Memory.wf_write {m : Memory} {a : Nat} (v : Word) (ha : a < memorySize) (hm : Memory.wf m = true) :
    Memory.wf (Memory.write m a v) = true := by
  have he : Memory.wf (Memory.erase m a) = true := Memory.wfFrom_erase m a 0 hm
  by_cases hv : v = Memory.unlisted
  · simpa [Memory.write, hv] using he
  · simpa [Memory.write, hv, Memory.wf] using
      Memory.wfFrom_insert _ ha hv (Memory.erase_keys m a) 0 (Nat.zero_le a) he

/-- The image's memory is canonical. -/
theorem Memory.wfFrom_ofWords (ws : List Word) :
    ∀ a, a + ws.length ≤ memorySize → Memory.wfFrom a (Memory.ofWords a ws) = true := by
  induction ws with
  | nil => intro a _; rfl
  | cons w ws ih =>
    intro a h
    have h' : a + 1 + ws.length ≤ memorySize := by simpa [Nat.add_assoc, Nat.add_comm 1] using h
    by_cases hw : w = Memory.unlisted
    · simp only [Memory.ofWords, hw, if_true]
      exact Memory.wfFrom_mono (Nat.le_succ a) (ih (a + 1) h')
    · simp only [Memory.ofWords, hw, if_false]
      exact (Memory.wfFrom_cons _ _ _ _).mpr ⟨le_rfl, by omega, hw, ih (a + 1) h'⟩

/-- Below the start of an image nothing is listed. -/
theorem Memory.read_ofWords_below (ws : List Word) :
    ∀ a d, d < a → Memory.read (Memory.ofWords a ws) d = Memory.unlisted := by
  induction ws with
  | nil => intro a d _; rfl
  | cons w ws ih =>
    intro a d h
    by_cases hw : w = Memory.unlisted
    · simpa [Memory.ofWords, hw] using ih (a + 1) d (by omega)
    · simpa [Memory.ofWords, hw, Memory.read_cons, show a ≠ d by omega] using ih (a + 1) d (by omega)

/-- The image's memory reads as the image, and as 0 beyond it. -/
theorem Memory.read_ofWords (ws : List Word) :
    ∀ a k, Memory.read (Memory.ofWords a ws) (a + k) = ws.getD k Memory.unlisted := by
  induction ws with
  | nil => intro a k; rfl
  | cons w ws ih =>
    intro a k
    cases k with
    | zero =>
      by_cases hw : w = Memory.unlisted
      · simpa [Memory.ofWords, hw] using Memory.read_ofWords_below ws (a + 1) a (by omega)
      · simp [Memory.ofWords, hw, Memory.read_cons]
    | succ k =>
      have ih' := ih (a + 1) k
      rw [show a + 1 + k = a + (k + 1) by omega] at ih'
      by_cases hw : w = Memory.unlisted
      · simpa [Memory.ofWords, hw] using ih'
      · simpa [Memory.ofWords, hw, Memory.read_cons, show a ≠ a + (k + 1) by omega] using ih'

end Sys2Proof.Machine
end

