-- ==== Sys2Proof/Laws/Ops.lean ====
section
/-! SUPPORT. What each shared operation can do, said once: the address decoder, the unified read and write, the
operand resolver, the stack, and the end of an instruction. -/

namespace Sys2Proof

@[simp] theorem memorySize_eq : memorySize = 32768 := rfl

@[simp] theorem addressCount_eq : addressCount = 32776 := rfl

@[simp] theorem modulus_eq : modulus = 32768 := rfl

end Sys2Proof

namespace Sys2Proof.Machine

/-! ### Registers -/

@[simp] theorem RegFile.get_set_same (x : RegFile) (i : Fin 8) (v : Word) : (x.set i v).get i = v := by
  fin_cases i <;> rfl

theorem RegFile.get_set_other (x : RegFile) (v : Word) {i j : Fin 8} (h : j ≠ i) :
    (x.set i v).get j = x.get j := by
  fin_cases i <;> fin_cases j <;> first | rfl | exact absurd rfl h

/-! ### The address decoder -/

theorem locate_memory {addr : Word} (h : addr.toNat ≤ 32767) : locate addr = .memory addr.toNat := by
  simp [locate, show addr.toNat < 32768 by omega]

theorem locate_register {addr : Word} {i : Fin 8} (h : addr.toNat = 32768 + i.val) :
    locate addr = .register i := by
  have h1 : ¬ addr.toNat < 32768 := by omega
  have h2 : addr.toNat - 32768 < 8 := by omega
  have h3 : (⟨addr.toNat - 32768, h2⟩ : Fin 8) = i := Fin.ext (by simp [h])
  simp [locate, h1, h2, h3]

theorem locate_nothing {addr : Word} (h : 32776 ≤ addr.toNat) : locate addr = .nothing := by
  simp [locate, show ¬ addr.toNat < 32768 by omega, show ¬ addr.toNat - 32768 < 8 by omega]

/-- What an address can name, with the range it lies in. -/
theorem locate_cases (addr : Word) :
    (addr.toNat ≤ 32767 ∧ locate addr = .memory addr.toNat) ∨
    (∃ i : Fin 8, addr.toNat = 32768 + i.val ∧ locate addr = .register i) ∨
    (32776 ≤ addr.toNat ∧ locate addr = .nothing) := by
  by_cases h : addr.toNat ≤ 32767
  · exact .inl ⟨h, locate_memory h⟩
  · by_cases h2 : addr.toNat < 32776
    · refine .inr (.inl ⟨⟨addr.toNat - 32768, by omega⟩, ?_, ?_⟩)
      · simp only; omega
      · exact locate_register (by simp only; omega)
    · exact .inr (.inr ⟨by omega, locate_nothing (by omega)⟩)

/-! ### The unified read -/

theorem memRead_missing (s : State) {addr : Word} (h : 32776 ≤ addr.toNat) :
    memRead s addr = .error (.invalidAddress addr) := by
  simp [memRead, locate_nothing h]

theorem memRead_exists (s : State) {addr : Word} (h : addr.toNat ≤ 32775) : ∃ v, memRead s addr = .ok v := by
  rcases locate_cases addr with ⟨_, hl⟩ | ⟨i, _, hl⟩ | ⟨h', _⟩
  · exact ⟨_, by simp [memRead, hl]; rfl⟩
  · exact ⟨_, by simp [memRead, hl]; rfl⟩
  · omega

theorem memRead_ok_range {s : State} {addr v : Word} (h : memRead s addr = .ok v) : addr.toNat ≤ 32775 := by
  by_contra hc
  simp [memRead_missing s (show 32776 ≤ addr.toNat by omega)] at h

theorem memRead_error {s : State} {addr : Word} {c : FaultCause} (h : memRead s addr = .error c) :
    c = .invalidAddress addr ∧ 32776 ≤ addr.toNat := by
  by_cases hr : addr.toNat ≤ 32775
  · obtain ⟨v, hv⟩ := memRead_exists s hr
    simp [hv] at h
  · rw [memRead_missing s (by omega)] at h
    exact ⟨(Except.error.inj h).symm, by omega⟩

/-- The unified read looks at memory and registers only. -/
theorem memRead_congr {s t : State} (hm : t.mem = s.mem) (hr : t.regs = s.regs) (d : Word) :
    memRead t d = memRead s d := by
  simp [memRead, hm, hr]

@[simp] theorem memRead_advance (n : Word) (s : State) (d : Word) : memRead (advance n s) d = memRead s d := rfl

@[simp] theorem memRead_jumpTo (v : Word) (s : State) (d : Word) : memRead (jumpTo v s) d = memRead s d := rfl

@[simp] theorem memRead_emit (b : Byte) (s : State) (d : Word) : memRead (emit b s) d = memRead s d := rfl

@[simp] theorem memRead_raiseFault (c : FaultCause) (o : Option Word) (s : State) (d : Word) :
    memRead (raiseFault c o s) d = memRead s d := rfl

@[simp] theorem memRead_haltRun (k : HaltKind) (s : State) (d : Word) : memRead (haltRun k s) d = memRead s d := rfl

/-! ### The operand resolver -/

theorem resolve_missing (s : State) {w : Word} (h : 32776 ≤ w.toNat) : resolve s w = .error (.invalidOperand w) := by
  simp [resolve, locate_nothing h]

theorem resolve_exists (s : State) {w : Word} (h : w.toNat ≤ 32775) : ∃ v, resolve s w = .ok v := by
  rcases locate_cases w with ⟨_, hl⟩ | ⟨i, _, hl⟩ | ⟨h', _⟩
  · exact ⟨_, by simp [resolve, hl]; rfl⟩
  · exact ⟨_, by simp [resolve, hl]; rfl⟩
  · omega

theorem resolve_error {s : State} {w : Word} {c : FaultCause} (h : resolve s w = .error c) :
    c = .invalidOperand w ∧ 32776 ≤ w.toNat := by
  by_cases hr : w.toNat ≤ 32775
  · obtain ⟨v, hv⟩ := resolve_exists s hr
    simp [hv] at h
  · rw [resolve_missing s (by omega)] at h
    exact ⟨(Except.error.inj h).symm, by omega⟩

/-! ### The unified write -/

theorem memWrite_missing (s : State) {addr : Word} (v : Word) (h : 32776 ≤ addr.toNat) :
    memWrite s addr v = .error (.invalidAddress addr) := by
  simp [memWrite, locate_nothing h]

theorem memWrite_exists (s : State) {addr : Word} (v : Word) (h : addr.toNat ≤ 32775) :
    ∃ t, memWrite s addr v = .ok t := by
  rcases locate_cases addr with ⟨_, hl⟩ | ⟨i, _, hl⟩ | ⟨h', _⟩
  · exact ⟨_, by simp [memWrite, hl]; rfl⟩
  · exact ⟨_, by simp [memWrite, hl]; rfl⟩
  · omega

/-- All a write that succeeds can be: one memory word in range, or one register, and nothing else. -/
theorem memWrite_cases {s t : State} {addr v : Word} (h : memWrite s addr v = .ok t) :
    (addr.toNat ≤ 32767 ∧ t = { s with mem := Memory.write s.mem addr.toNat v }) ∨
    (∃ i : Fin 8, addr.toNat = 32768 + i.val ∧ t = { s with regs := s.regs.set i v }) := by
  rcases locate_cases addr with ⟨hr, hl⟩ | ⟨i, hi, hl⟩ | ⟨_, hl⟩
  · exact .inl ⟨hr, by simpa [memWrite, hl] using h.symm⟩
  · exact .inr ⟨i, hi, by simpa [memWrite, hl] using h.symm⟩
  · simp [memWrite, hl] at h

theorem memWrite_error {s : State} {addr v : Word} {c : FaultCause} (h : memWrite s addr v = .error c) :
    c = .invalidAddress addr ∧ 32776 ≤ addr.toNat := by
  by_cases hr : addr.toNat ≤ 32775
  · obtain ⟨t, ht⟩ := memWrite_exists s v hr
    simp [ht] at h
  · rw [memWrite_missing s v (by omega)] at h
    exact ⟨(Except.error.inj h).symm, by omega⟩

/-- Everything but memory and registers is as before a write. -/
theorem memWrite_rest {s t : State} {addr v : Word} (h : memWrite s addr v = .ok t) :
    t = { s with mem := t.mem, regs := t.regs } := by
  rcases memWrite_cases h with ⟨_, rfl⟩ | ⟨i, _, rfl⟩ <;> rfl

/-- The word just written is read back. -/
theorem memRead_memWrite_same {s t : State} {addr v : Word} (h : memWrite s addr v = .ok t) :
    memRead t addr = .ok v := by
  rcases memWrite_cases h with ⟨hr, rfl⟩ | ⟨i, hi, rfl⟩
  · simp [memRead, locate_memory hr]
  · simp [memRead, locate_register hi]

/-- Every other address reads as before a write. -/
theorem memRead_memWrite_other {s t : State} {addr v d : Word} (h : memWrite s addr v = .ok t) (hd : d ≠ addr) :
    memRead t d = memRead s d := by
  have hne : d.toNat ≠ addr.toNat := fun hc => hd (BitVec.eq_of_toNat_eq hc)
  rcases memWrite_cases h with ⟨hr, rfl⟩ | ⟨i, hi, rfl⟩
  · rcases locate_cases d with ⟨_, hl⟩ | ⟨j, _, hl⟩ | ⟨_, hl⟩
    · simp [memRead, hl, Memory.read_write_other s.mem v hne]
    · simp [memRead, hl]
    · simp [memRead, hl]
  · rcases locate_cases d with ⟨_, hl⟩ | ⟨j, hj, hl⟩ | ⟨_, hl⟩
    · simp [memRead, hl]
    · have hij : j ≠ i := fun hc => hne (by omega)
      simp [memRead, hl, RegFile.get_set_other s.regs v hij]
    · simp [memRead, hl]

/-- A write keeps memory canonical. -/
theorem memWrite_wf {s t : State} {addr v : Word} (h : memWrite s addr v = .ok t) (hm : Memory.wf s.mem = true) :
    Memory.wf t.mem = true := by
  rcases memWrite_cases h with ⟨hr, rfl⟩ | ⟨i, _, rfl⟩
  · exact Memory.wf_write v (show addr.toNat < 32768 by omega) hm
  · exact hm

/-! ### The stack -/

/-- All a push can be. -/
theorem push_cases (v : Word) (s : State) :
    (s.config.stackCapacity = some s.stack.length ∧ push v s = .error .stackOverflow) ∨
    (s.config.stackCapacity ≠ some s.stack.length ∧ push v s = .ok { s with stack := s.stack ++ [v] }) := by
  by_cases h : s.config.stackCapacity = some s.stack.length
  · exact .inl ⟨h, by simp [push, h]⟩
  · exact .inr ⟨h, by simp [push, h]⟩

/-- All a pop can be. -/
theorem pop_cases (s : State) :
    (s.stack = [] ∧ pop s = none) ∨
    (∃ v rest, s.stack = rest ++ [v] ∧ pop s = some (v, { s with stack := rest })) := by
  rcases List.eq_nil_or_concat s.stack with h | ⟨rest, v, h⟩
  · exact .inl ⟨h, by simp [pop, h]⟩
  · exact .inr ⟨v, rest, by simpa using h, by simp [pop, h]⟩

/-! ### The end of an instruction -/

@[simp] theorem conclude_ok (op : Word) (s t : State) : conclude op s (.ok t) = .next t := rfl

@[simp] theorem conclude_error (op : Word) (s : State) (c : FaultCause) :
    conclude op s (.error c) = .next (raiseFault c (some op) s) := rfl

/-- An instruction always ends in a next state: its effect, or fault entry in the state it began in. -/
theorem conclude_cases {op : Word} {s t : State} {r : Except FaultCause State} (h : conclude op s r = .next t) :
    r = .ok t ∨ ∃ c, r = .error c ∧ t = raiseFault c (some op) s := by
  cases r with
  | ok u => exact .inl (by simpa using h)
  | error c => exact .inr ⟨c, rfl, by simpa using h.symm⟩

/-- The bind of a phase that succeeds goes on with its value. -/
@[simp] theorem phase_ok {α β : Type} (v : α) (f : α → Except FaultCause β) :
    (Except.ok v >>= f) = f v := rfl

/-- The bind of a phase that fails is its fault: later phases do not run (R91). -/
@[simp] theorem phase_error {α β : Type} (c : FaultCause) (f : α → Except FaultCause β) :
    ((Except.error c : Except FaultCause α) >>= f) = .error c := rfl

/-- If a sequence of phases succeeds, its first phase does. -/
theorem phase_bind_ok {α β : Type} {x : Except FaultCause α} {f : α → Except FaultCause β} {b : β}
    (h : (x >>= f) = .ok b) : ∃ a, x = .ok a ∧ f a = .ok b := by
  cases x with
  | ok a => exact ⟨a, rfl, h⟩
  | error c => exact absurd h (by simp)

end Sys2Proof.Machine
end

