-- ==== Sys2Proof/Laws/Step.lean ====
section
/-! SUPPORT. What a step can be, one lemma per case, so that no proof unfolds `step` or `answerInput` again. -/

namespace Sys2Proof.Machine

theorem step_instruction {s : State} {i : Instr} (hr : s.run = .running) (hf : fetch s = .instruction i) :
    step s = exec i s := by
  simp [step, hr, hf]

theorem step_unassigned {s : State} {u : Word} (hr : s.run = .running) (hf : fetch s = .unassigned u) :
    step s = execUnassigned u s := by
  simp [step, hr, hf]

theorem step_fetch_fault {s : State} {c : FaultCause} {o : Option Word} (hr : s.run = .running)
    (hf : fetch s = .fault c o) : step s = .next (raiseFault c o s) := by
  simp [step, hr, hf]

theorem step_awaiting {s : State} (hr : s.run = .awaitingInput) : step s = answerInput s := by
  simp [step, hr]

/-- A fetch that gives an instruction has read its opcode word at `pc`. -/
theorem fetch_instruction {s : State} {i : Instr} (hf : fetch s = .instruction i) :
    ∃ opc shape, memRead s s.pc = .ok opc ∧ layout opc = some shape ∧ fetchOperands s shape = .ok i := by
  unfold fetch at hf
  split at hf
  · cases hf
  · rename_i opc ho
    split at hf
    · cases hf
    · rename_i shape hs
      split at hf
      · cases hf
      · rename_i j hj
        cases hf
        exact ⟨opc, shape, ho, hs, hj⟩

/-- The opcode word read at `pc` is the first word of the instruction the fetch gives. -/
theorem fetch_opcode {s : State} {i : Instr} (hf : fetch s = .instruction i) :
    ∃ op, memRead s s.pc = .ok op ∧ (encode i).head? = some op := by
  obtain ⟨opc, shape, ho, hl, hi⟩ := fetch_instruction hf
  refine ⟨opc, ho, ?_⟩
  have he := layout_encode hl
  cases shape <;> simp only [fetchOperands] at hi he
  · cases hi
    simp [he]
  · obtain ⟨a, _, hi⟩ := phase_bind_ok hi
    cases hi
    simp [he]
  · obtain ⟨a, _, hi⟩ := phase_bind_ok hi
    obtain ⟨b, _, hi⟩ := phase_bind_ok hi
    cases hi
    simp [he]
  · obtain ⟨a, _, hi⟩ := phase_bind_ok hi
    obtain ⟨b, _, hi⟩ := phase_bind_ok hi
    obtain ⟨c, _, hi⟩ := phase_bind_ok hi
    cases hi
    simp [he]

/-- A fetch that gives an unassigned opcode has read it at `pc`. -/
theorem fetch_unassigned {s : State} {u : Word} (hf : fetch s = .unassigned u) :
    memRead s s.pc = .ok u ∧ layout u = none := by
  unfold fetch at hf
  split at hf
  · cases hf
  · rename_i opc ho
    split at hf
    · rename_i hl
      cases hf
      exact ⟨ho, hl⟩
    · split at hf <;> cases hf

/-- A fetch that fails has met an address that does not exist: `pc`, with no opcode recorded, or a later one. -/
theorem fetch_fault {s : State} {c : FaultCause} {o : Option Word} (hf : fetch s = .fault c o) :
    (memRead s s.pc = .error c ∧ o = none) ∨
    (∃ opc shape, memRead s s.pc = .ok opc ∧ layout opc = some shape ∧ fetchOperands s shape = .error c ∧
      o = some opc) := by
  unfold fetch at hf
  split at hf
  · rename_i c' hc
    cases hf
    exact .inl ⟨hc, rfl⟩
  · rename_i opc ho
    split at hf
    · cases hf
    · rename_i shape hs
      split at hf
      · rename_i c' hc
        cases hf
        exact .inr ⟨opc, shape, ho, hs, hc, rfl⟩
      · cases hf

/-- The end of an instruction is always a next state. -/
theorem conclude_next (op : Word) (s : State) (r : Except FaultCause State) : ∃ t, conclude op s r = .next t := by
  cases r with
  | ok t => exact ⟨t, rfl⟩
  | error c => exact ⟨_, rfl⟩

/-- The dest write and advance that end an `in`. -/
theorem writeInput_cases {a code : Word} {s t : State} (h : writeInput a code s = .ok t) :
    ∃ u, memWrite s a code = .ok u ∧ t = advance 2 u := by
  obtain ⟨u, hu, ht⟩ := phase_bind_ok h
  exact ⟨u, hu, (Except.ok.inj ht).symm⟩

/-- The memory of the reset state is canonical. -/
theorem reset_memory_wf : Memory.wf State.reset.mem = true := rfl

end Sys2Proof.Machine
end

