-- ==== Sys2Proof/Laws/Exec.lean ====
section
/-! SUPPORT. What any instruction can do, said once: one inversion lemma over all meanings, from which rules about
the whole machine follow without unfolding a meaning again. -/

namespace Sys2Proof.Machine

/-- The kinds of next state an instruction can have, as far as rules about the whole machine need them. -/
inductive ExecResult (i : Instr) (s t : State) : Prop where
  /-- Fault entry in the state it began in, with its own opcode word. -/
  | faulted (c : FaultCause) (op : Word) (hop : (encode i).head? = some op) (ht : t = raiseFault c (some op) s)
  /-- The graceful halt of `halt`. -/
  | halted (hi : i = .halt) (ht : t = haltRun .haltOpcode s)
  /-- The graceful halt of `ret` on an empty stack. -/
  | returned (hi : i = .ret) (hs : s.stack = []) (ht : t = haltRun .returnEmptyStack s)
  /-- The wait of `in` on an empty queue. -/
  | waits (a : Word) (hi : i = .in_ a) (hq : s.inputQueue = []) (ht : t = { s with run := .awaitingInput })
  /-- The run goes on. -/
  | runsOn (hrun : t.run = s.run) (hconfig : t.config = s.config) (hanswers : t.hostAnswers = s.hostAnswers)
      (hmem : Memory.wf s.mem = true → Memory.wf t.mem = true)
      (hstack : t.stack = s.stack ∨ (∃ rest v, s.stack = rest ++ [v] ∧ t.stack = rest) ∨
        (s.config.stackCapacity ≠ some s.stack.length ∧ ∃ v, t.stack = s.stack ++ [v]))
      (hout : t.output = s.output ∨ (∃ a, i = .out a) ∧ ∃ b, t.output = s.output ++ [b])

theorem execResult_write {i : Instr} {s u : State} {n a v : Word} (h : memWrite s a v = .ok u) :
    ExecResult i s (advance n u) := by
  have hu := memWrite_rest h
  refine .runsOn ?_ ?_ ?_ (fun hm => (memWrite_wf h hm :)) (.inl ?_) (.inl ?_) <;> (rw [hu]; simp)

theorem execResult_conclude {i : Instr} {s t : State} {op : Word} {r : Except FaultCause State}
    (hop : (encode i).head? = some op) (h : conclude op s r = .next t) (hr : r = .ok t → ExecResult i s t) :
    ExecResult i s t := by
  rcases conclude_cases h with h | ⟨c, _, h⟩
  · exact hr h
  · exact .faulted c op hop h

/-- Every next state of an instruction is of one of these kinds. -/
theorem exec_cases {i : Instr} {s t : State} (h : exec i s = .next t) : ExecResult i s t := by
  cases i <;> simp only [exec] at h
  case halt =>
    cases h
    exact .halted rfl rfl
  case noop =>
    cases h
    exact .runsOn rfl rfl rfl id (.inl rfl) (.inl rfl)
  case ret =>
    rcases pop_cases s with ⟨hs, hp⟩ | ⟨v, rest, hs, hp⟩ <;> simp only [execRet, hp] at h <;> cases h
    · exact .returned rfl hs rfl
    · exact .runsOn rfl rfl rfl id (.inr (.inl ⟨rest, v, hs, rfl⟩)) (.inl rfl)
  case in_ a =>
    unfold execIn at h
    split at h
    · rename_i code rest hq
      refine execResult_conclude rfl h fun h => ?_
      obtain ⟨u, hw, rfl⟩ := writeInput_cases h
      have hu := memWrite_rest hw
      refine .runsOn ?_ ?_ ?_ (fun hm => (memWrite_wf (s := { s with inputQueue := rest }) hw hm :)) (.inl ?_)
        (.inl ?_) <;> (rw [hu]; simp)
    · rename_i hq
      cases h
      exact .waits a rfl hq rfl
  case pop a =>
    refine execResult_conclude rfl h fun h => ?_
    rcases pop_cases s with ⟨hs, hp⟩ | ⟨v, rest, hs, hp⟩ <;> simp only [hp] at h
    · cases h
    · obtain ⟨u, hw, h⟩ := phase_bind_ok h
      cases h
      have hu := memWrite_rest hw
      refine .runsOn ?_ ?_ ?_ (fun hm => (memWrite_wf (s := { s with stack := rest }) hw hm :))
        (.inr (.inl ⟨rest, v, hs, ?_⟩)) (.inl ?_) <;> (rw [hu]; simp)
  case push a =>
    refine execResult_conclude rfl h fun h => ?_
    obtain ⟨va, _, h⟩ := phase_bind_ok h
    obtain ⟨u, hu, h⟩ := phase_bind_ok h
    cases h
    rcases push_cases va s with ⟨_, hp⟩ | ⟨hc, hp⟩ <;> rw [hp] at hu <;> cases hu
    exact .runsOn rfl rfl rfl id (.inr (.inr ⟨hc, va, rfl⟩)) (.inl rfl)
  case call a =>
    refine execResult_conclude rfl h fun h => ?_
    obtain ⟨va, _, h⟩ := phase_bind_ok h
    obtain ⟨u, hu, h⟩ := phase_bind_ok h
    cases h
    rcases push_cases (s.pc + 2) s with ⟨_, hp⟩ | ⟨hc, hp⟩ <;> rw [hp] at hu <;> cases hu
    exact .runsOn rfl rfl rfl id (.inr (.inr ⟨hc, _, rfl⟩)) (.inl rfl)
  case jmp a =>
    refine execResult_conclude rfl h fun h => ?_
    obtain ⟨va, _, h⟩ := phase_bind_ok h
    cases h
    exact .runsOn rfl rfl rfl id (.inl rfl) (.inl rfl)
  case out a =>
    refine execResult_conclude rfl h fun h => ?_
    obtain ⟨va, _, h⟩ := phase_bind_ok h
    cases h
    exact .runsOn rfl rfl rfl id (.inl rfl) (.inr ⟨⟨a, rfl⟩, _, rfl⟩)
  case jt a b =>
    refine execResult_conclude rfl h fun h => ?_
    obtain ⟨va, _, h⟩ := phase_bind_ok h
    obtain ⟨vb, _, h⟩ := phase_bind_ok h
    cases h
    split <;> exact .runsOn rfl rfl rfl id (.inl rfl) (.inl rfl)
  case jf a b =>
    refine execResult_conclude rfl h fun h => ?_
    obtain ⟨va, _, h⟩ := phase_bind_ok h
    obtain ⟨vb, _, h⟩ := phase_bind_ok h
    cases h
    split <;> exact .runsOn rfl rfl rfl id (.inl rfl) (.inl rfl)
  all_goals
    refine execResult_conclude rfl h fun h => ?_
    repeat (obtain ⟨_, hw, h⟩ := phase_bind_ok h)
    cases h
    exact execResult_write hw

end Sys2Proof.Machine
end

