-- ==== Sys2Proof/Laws/PerInstr.lean ====
section
/-! SUPPORT. A statement for every instruction, one lemma per constructor: its words are one opcode word and then its
operand words in order, at most four in all (30_encoding.md rules R80, R81). -/

namespace Sys2Proof.Laws.OpcodeThenOperands

def Statement (i : Instr) : Prop :=
  (encode i).tail = i.operands.map Prod.snd ∧ (encode i).length = 1 + i.operands.length ∧ (encode i).length ≤ 4

theorem halt : Statement .halt := ⟨rfl, rfl, by simp [encode]⟩

theorem set (a b : Word) : Statement (.set a b) := ⟨rfl, rfl, by simp [encode]⟩

theorem push (a : Word) : Statement (.push a) := ⟨rfl, rfl, by simp [encode]⟩

theorem pop (a : Word) : Statement (.pop a) := ⟨rfl, rfl, by simp [encode]⟩

theorem eq (a b c : Word) : Statement (.eq a b c) := ⟨rfl, rfl, by simp [encode]⟩

theorem gt (a b c : Word) : Statement (.gt a b c) := ⟨rfl, rfl, by simp [encode]⟩

theorem jmp (a : Word) : Statement (.jmp a) := ⟨rfl, rfl, by simp [encode]⟩

theorem jt (a b : Word) : Statement (.jt a b) := ⟨rfl, rfl, by simp [encode]⟩

theorem jf (a b : Word) : Statement (.jf a b) := ⟨rfl, rfl, by simp [encode]⟩

theorem add (a b c : Word) : Statement (.add a b c) := ⟨rfl, rfl, by simp [encode]⟩

theorem mult (a b c : Word) : Statement (.mult a b c) := ⟨rfl, rfl, by simp [encode]⟩

theorem mod (a b c : Word) : Statement (.mod a b c) := ⟨rfl, rfl, by simp [encode]⟩

theorem and (a b c : Word) : Statement (.and a b c) := ⟨rfl, rfl, by simp [encode]⟩

theorem or (a b c : Word) : Statement (.or a b c) := ⟨rfl, rfl, by simp [encode]⟩

theorem not (a b : Word) : Statement (.not a b) := ⟨rfl, rfl, by simp [encode]⟩

theorem rmem (a b : Word) : Statement (.rmem a b) := ⟨rfl, rfl, by simp [encode]⟩

theorem wmem (a b : Word) : Statement (.wmem a b) := ⟨rfl, rfl, by simp [encode]⟩

theorem call (a : Word) : Statement (.call a) := ⟨rfl, rfl, by simp [encode]⟩

theorem ret : Statement .ret := ⟨rfl, rfl, by simp [encode]⟩

theorem out (a : Word) : Statement (.out a) := ⟨rfl, rfl, by simp [encode]⟩

theorem in_ (a : Word) : Statement (.in_ a) := ⟨rfl, rfl, by simp [encode]⟩

theorem noop : Statement .noop := ⟨rfl, rfl, by simp [encode]⟩

end Sys2Proof.Laws.OpcodeThenOperands
end

