-- ==== Sys2Proof/Tests/Slice0.lean ====
section
/-! SUPPORT. The model's own tests: decoding words written out from the encodings of 30_encoding.md rule R82, the
checks of WellFormed, one step of each instruction with results taken from 95_test_vectors.md or computed by hand
from its rule, and a witness for the hypotheses of every statement that has some. -/

namespace Sys2Proof.Tests

open Sys2Proof.Machine

/-- Reset with the given words in memory from address 0. -/
def image (words : List Word) : State := { State.reset with mem := Memory.ofWords 0 words }

/-- The same with the given first four registers. -/
def imageRegs (words : List Word) (r0 r1 r2 r3 : Word) : State :=
  { image words with regs := { RegFile.zero with r0 := r0, r1 := r1, r2 := r2, r3 := r3 } }

/-- The next state, if there is one. -/
def next? : Result → Option State
  | .next t => some t
  | .fault _ => none
  | .refused _ => none

/-- One view of the state after one step. -/
def after {α : Type} (view : State → α) (s : State) : Option α := (next? (step s)).map view

/-- The word at an address, if it exists. -/
def word? (d : Word) (s : State) : Option Word :=
  match memRead s d with
  | .ok v => some v
  | .error _ => none

/-! ### Decoding: the words of rule R82, one per constructor -/

theorem test_decode_halt : decode [0x0000] = .instruction (.halt) [] := by decide

theorem test_decode_set : decode [0x0001, 0x8000, 0x0004] = .instruction (.set 32768 4) [] := by decide

theorem test_decode_push : decode [0x0002, 0x0007] = .instruction (.push 7) [] := by decide

theorem test_decode_pop : decode [0x0003, 0x8001] = .instruction (.pop 32769) [] := by decide

theorem test_decode_eq : decode [0x0004, 0x8002, 0x8000, 0x8001] = .instruction (.eq 32770 32768 32769) [] := by decide

theorem test_decode_gt : decode [0x0005, 0x8004, 0x8003, 0x02FE] = .instruction (.gt 32772 32771 766) [] := by decide

theorem test_decode_jmp : decode [0x0006, 0x000A] = .instruction (.jmp 10) [] := by decide

theorem test_decode_jt : decode [0x0007, 0x0001, 0x0014] = .instruction (.jt 1 20) [] := by decide

theorem test_decode_jf : decode [0x0008, 0x8000, 0x0014] = .instruction (.jf 32768 20) [] := by decide

theorem test_decode_add : decode [0x0009, 0x8001, 0x8001, 0x8000] = .instruction (.add 32769 32769 32768) [] := by decide

theorem test_decode_mult : decode [0x000A, 0x8000, 0x012C, 0x00C8] = .instruction (.mult 32768 300 200) [] := by decide

theorem test_decode_mod : decode [0x000B, 0x8003, 0x8002, 0x03E8] = .instruction (.mod 32771 32770 1000) [] := by decide

theorem test_decode_and : decode [0x000C, 0x8001, 0x8000, 0x5555] = .instruction (.and 32769 32768 21845) [] := by decide

theorem test_decode_or : decode [0x000D, 0x8002, 0x8001, 0x2AAA] = .instruction (.or 32770 32769 10922) [] := by decide

theorem test_decode_not : decode [0x000E, 0x8000, 0x0000] = .instruction (.not 32768 0) [] := by decide

theorem test_decode_rmem : decode [0x000F, 0x8002, 0x0064] = .instruction (.rmem 32770 100) [] := by decide

theorem test_decode_wmem : decode [0x0010, 0x0064, 0x8001] = .instruction (.wmem 100 32769) [] := by decide

theorem test_decode_call : decode [0x0011, 0x0008] = .instruction (.call 8) [] := by decide

theorem test_decode_ret : decode [0x0012] = .instruction (.ret) [] := by decide

theorem test_decode_out : decode [0x0013, 0x0048] = .instruction (.out 72) [] := by decide

theorem test_decode_in : decode [0x0014, 0x8000] = .instruction (.in_ 32768) [] := by decide

theorem test_decode_noop : decode [0x0015] = .instruction (.noop) [] := by decide

theorem test_decode_unassigned : decode [22, 0] = .unassigned 22 [0] := by decide

/-- R87: a register's word as an opcode is unassigned. -/
theorem test_decode_register_word_as_opcode : decode [32768] = .unassigned 32768 [] := by decide

theorem test_decode_truncated : decode [9, 1, 2] = .truncated := by decide

/-- The first bytes of program P1. -/
theorem test_decode_bytes : decodeBytes [0x01, 0x00, 0x00, 0x80, 0x05, 0x00] = .instruction (.set 32768 5) [] := by decide

theorem test_decode_odd_bytes : decodeBytes [0x15] = .oddBytes := by decide

theorem test_table_word : decodeTableWord 16 11 = some (.mod 0 0 0) := by decide

theorem test_table_word_unassigned : decodeTableWord 16 22 = none := by decide

/-- `mod 0 0 0` placed by the host's word divides by zero. -/
theorem test_fetch_word : after (·.run) (State.reset.withFetchWord 16 11) = some (.faulted .divideByZero 0 (some 11)) := by decide

/-- A line whose characters are one byte each. -/
def text (b : Byte) (bs : List Byte) : Line :=
  { first := { first := b, rest := [] }, rest := charactersOfBytes bs }

/-- `A`, the two bytes of a Greek pi in UTF-8, byte 128, the newline. -/
def mixedLine : Line :=
  { first := { first := 65, rest := [] }, rest := { first := 0xCF, rest := [0x80] } :: charactersOfBytes [128, 10] }

/-- A host that decodes that line's characters outside ASCII to 960 and 128. -/
def mixedConfig : Config := { Config.standard with inputDecode := [(mixedLine, [⟨960, []⟩, ⟨128, []⟩])] }

/-! ### WellFormed: an ill-formed term for each check -/

theorem test_wellFormed_dest : WellFormed (.set 32776 5) = false := by decide

theorem test_wellFormed_value : WellFormed (.set 32768 32776) = false := by decide

theorem test_wellFormed_second_value : WellFormed (.add 32768 1 65535) = false := by decide

theorem test_wellFormed_boundary : WellFormed (.set 32775 32775) = true := by decide

/-! ### Single steps (95_test_vectors.md part 2) -/

theorem test_halt : after (·.run) (image [0]) = some (.halted .haltOpcode 0) := by decide

theorem test_set_copies_unmasked : after (word? 32768) (imageRegs [1, 32768, 32771] 0 0 0 40000) = some (some 40000) := by decide

theorem test_set_dest_in_memory : after (word? 100) (image [1, 100, 5]) = some (some 5) := by decide

theorem test_push_resolves : after (·.stack) (imageRegs [2, 32771] 0 0 0 9) = some [9] := by decide

theorem test_pop : after (word? 32769) { image [3, 32769] with stack := [7] } = some (some 7) := by decide

theorem test_pop_bad_dest_keeps_stack : after (fun t => (t.run, t.stack)) { image [3, 40000] with stack := [7] } = some (.faulted (.invalidAddress 40000) 0 (some 3), [7]) := by decide

theorem test_eq_full_width : after (word? 32769) (imageRegs [4, 32769, 32768, 0] 32768 9 0 0) = some (some 0) := by decide

theorem test_eq_self : after (word? 32768) (image [4, 32768, 32768, 32768]) = some (some 1) := by decide

theorem test_gt_unsigned : after (word? 32768) (imageRegs [5, 32768, 32771, 32767] 0 0 0 40000) = some (some 1) := by decide

theorem test_gt_strict : after (word? 32768) (imageRegs [5, 32768, 5, 5] 9 0 0 0) = some (some 0) := by decide

theorem test_jmp_register : after (·.pc) (imageRegs [6, 32769] 0 3 0 0) = some 3 := by decide

theorem test_jt_large_is_true : after (·.pc) (imageRegs [7, 32768, 20] 40000 0 0 0) = some 20 := by decide

theorem test_jt_untaken_bad_target : after (·.run) (image [7, 0, 40000]) = some (.faulted (.invalidOperand 40000) 0 (some 7)) := by decide

theorem test_jf_zero : after (·.pc) (image [8, 32768, 20]) = some 20 := by decide

theorem test_jf_large_is_true : after (·.pc) (imageRegs [8, 32768, 20] 32768 0 0 0) = some 3 := by decide

theorem test_add_wraps : after (word? 32770) (imageRegs [9, 32770, 32768, 32769] 65535 1 7 0) = some (some 0) := by decide

theorem test_add_self : after (word? 32768) (imageRegs [9, 32768, 32768, 32768] 40000 0 0 0) = some (some 14464) := by decide

theorem test_mult : after (word? 32768) (image [10, 32768, 300, 200]) = some (some 27232) := by decide

theorem test_mult_exact : after (word? 32768) (imageRegs [10, 32768, 32769, 32769] 0 65535 0 0) = some (some 1) := by decide

theorem test_mod_reduced : after (word? 32768) (imageRegs [11, 32768, 32769, 32770] 0 40000 50000 0) = some (some 7232) := by decide

theorem test_mod_zero_before_dest : after (·.run) (image [11, 40000, 5, 0]) = some (.faulted .divideByZero 0 (some 11)) := by decide

theorem test_and_unreduced : after (word? 32768) (imageRegs [12, 32768, 32769, 32770] 0 40000 65535 0) = some (some 40000) := by decide

theorem test_or_unreduced : after (word? 32768) (imageRegs [13, 32768, 32769, 1] 0 40000 0 0) = some (some 40001) := by decide

theorem test_not_fifteen_bits : after (word? 32768) (imageRegs [14, 32768, 32769] 0 40000 0 0) = some (some 25535) := by decide

theorem test_not_zero : after (word? 32768) (image [14, 32768, 0]) = some (some 32767) := by decide

theorem test_rmem_of_own_word : after (word? 32768) (image [15, 32768, 1]) = some (some 32768) := by decide

theorem test_rmem_of_register : after (word? 32768) (imageRegs [15, 32768, 32769] 0 32771 0 4) = some (some 4) := by decide

theorem test_wmem_to_register : after (fun t => (word? 32770 t, word? 32769 t)) (imageRegs [16, 32769, 55] 0 32770 0 0) = some (some 55, some 32770) := by decide

theorem test_wmem_into_itself : after (fun t => (word? 1 t, t.pc)) (image [16, 1, 0]) = some (some 0, 3) := by decide

theorem test_call : after (fun t => (t.stack, t.pc)) { image [0, 0, 17, 8] with stack := [7], pc := 2 } = some ([7, 4], 8) := by decide

theorem test_ret : after (fun t => (t.stack, t.pc)) { image [18] with stack := [7, 4] } = some ([7], 4) := by decide

theorem test_ret_on_empty_stack : after (·.run) (image [18]) = some (.halted .returnEmptyStack 0) := by decide

theorem test_out_low_byte : after (·.output) (image [19, 321]) = some [65] := by decide

theorem test_in_queued : after (fun t => (word? 32768 t, t.inputQueue)) { image [20, 32768] with inputQueue := [66, 10] } = some (some 66, [10]) := by decide

theorem test_in_waits : after (fun t => (t.run, t.pc)) (image [20, 32768]) = some (.awaitingInput, 0) := by decide

theorem test_noop : after (·.pc) (image [21]) = some 1 := by decide

theorem test_unassigned : after (·.pc) (image [22]) = some 1 := by decide

theorem test_unassigned_under_fault_policy : after (·.run) { image [22] with config := { Config.standard with unknownOpcodePolicy := .fault } } = some (.faulted (.invalidOpcode 22) 0 (some 22)) := by decide

theorem test_push_on_full_stack : after (fun t => (t.run, t.stack)) { image [2, 7] with stack := [1], config := { Config.standard with stackCapacity := some 1 } } = some (.faulted .stackOverflow 0 (some 2), [1]) := by decide

theorem test_answer_line : after (fun t => (word? 32768 t, t.inputQueue, t.run)) { image [20, 32768] with run := .awaitingInput, hostAnswers := [.line (text 65 [66, 10])] } = some (some 65, [66, 10], .running) := by decide

theorem test_answer_bad_dest_takes_line : after (fun t => (t.run, t.inputQueue)) { image [20, 40000] with run := .awaitingInput, hostAnswers := [.line (text 65 [10])] } = some (.faulted (.invalidAddress 40000) 0 (some 20), [10]) := by decide

theorem test_answer_end_of_stream : after (·.run) { image [20, 32768] with run := .awaitingInput, hostAnswers := [.endOfStream] } = some (.faulted .ioFailure 0 (some 20)) := by decide

theorem test_fetch_operand_missing : after (·.run) { State.reset with pc := 32775, regs := { RegFile.zero with r7 := 6 } } = some (.faulted (.invalidAddress 32776) 32775 (some 6)) := by decide +kernel

theorem test_fetch_opcode_missing : after (·.run) { State.reset with pc := 40000 } = some (.faulted (.invalidAddress 40000) 40000 none) := by decide

theorem test_fetch_across_into_registers : after (fun t => (word? 32769 t, t.pc)) { State.reset with pc := 32766, mem := [(32766, 1), (32767, 32769)], regs := { RegFile.zero with r0 := 7 } } = some (some 7, 32769) := by decide

theorem test_stream_lines : linesOf (charactersOfBytes [65, 66, 10, 67]) = [text 65 [66, 10], text 67 []] := by decide

/-- R175: a listed line gives codes to its characters outside ASCII alone. -/
theorem test_mixed_line_keeps_ascii_codes : codeWords (inputCodes mixedConfig mixedLine) = [65, 960, 128, 10] := by decide

/-- R175: by default one code per byte. -/
theorem test_mixed_line_by_default : codeWords (inputCodes Config.standard mixedLine) = [65, 207, 128, 128, 10] := by decide

theorem test_boot_little_endian : ((bootImage [0x34, 0x12]).toOption.bind (word? 0)) = some 0x1234 := by decide

theorem test_out_event : (next? (step (image [19, 65]))).map (transitionEvents (image [19, 65])) = some [.outByte 65] := by decide

/-! ### Witnesses: states and operands that meet the hypotheses of each statement, clause by clause, at the
boundaries of their ranges. -/

/-- r7 is 9, the stack holds 7 and 4, one code is queued. -/
def sample : State :=
  { image [21] with
    regs := { RegFile.zero with r7 := 9 }
    stack := [7, 4]
    inputQueue := [65] }

/-- The sample with a stack bounded at its depth. -/
def full : State := { sample with config := { Config.standard with stackCapacity := some 2 } }

/-- The sample with the stack and the queue empty. -/
def bare : State := { sample with stack := [], inputQueue := [] }

theorem sample_at_noop : InstructionAt sample .noop := by unfold InstructionAt; decide +kernel

theorem witness_SetWritesResolvedValue : (resolve sample 32775 = .ok 9 ∧ (32775 : Word).toNat ≤ 32775) ∧ 32776 ≤ (32776 : Word).toNat ∧ ((32775 : Word).toNat ≤ 32775 ∧ 32776 ≤ (32776 : Word).toNat) := by decide +kernel

theorem witness_NotWritesFifteenBitComplement : (resolve sample 32775 = .ok 9 ∧ (32775 : Word).toNat ≤ 32775) ∧ 32776 ≤ (32776 : Word).toNat ∧ ((32775 : Word).toNat ≤ 32775 ∧ 32776 ≤ (32776 : Word).toNat) := by decide +kernel

theorem witness_EqWritesEqualityOfWords : (resolve sample 32775 = .ok 9 ∧ resolve sample 32767 = .ok 32767 ∧ (32775 : Word).toNat ≤ 32775) ∧ 32776 ≤ (32776 : Word).toNat ∧ ((32775 : Word).toNat ≤ 32775 ∧ 32776 ≤ (32776 : Word).toNat) ∧ ((32775 : Word).toNat ≤ 32775 ∧ (32767 : Word).toNat ≤ 32775 ∧ 32776 ≤ (32776 : Word).toNat) := by decide +kernel

theorem witness_GtWritesUnsignedComparison : (resolve sample 32775 = .ok 9 ∧ resolve sample 32767 = .ok 32767 ∧ (32775 : Word).toNat ≤ 32775) ∧ 32776 ≤ (32776 : Word).toNat ∧ ((32775 : Word).toNat ≤ 32775 ∧ 32776 ≤ (32776 : Word).toNat) ∧ ((32775 : Word).toNat ≤ 32775 ∧ (32767 : Word).toNat ≤ 32775 ∧ 32776 ≤ (32776 : Word).toNat) := by decide +kernel

theorem witness_AddWritesSumModulo : (resolve sample 32775 = .ok 9 ∧ resolve sample 32767 = .ok 32767 ∧ (32775 : Word).toNat ≤ 32775) ∧ 32776 ≤ (32776 : Word).toNat ∧ ((32775 : Word).toNat ≤ 32775 ∧ 32776 ≤ (32776 : Word).toNat) ∧ ((32775 : Word).toNat ≤ 32775 ∧ (32767 : Word).toNat ≤ 32775 ∧ 32776 ≤ (32776 : Word).toNat) := by decide +kernel

theorem witness_MultWritesProductModulo : (resolve sample 32775 = .ok 9 ∧ resolve sample 32767 = .ok 32767 ∧ (32775 : Word).toNat ≤ 32775) ∧ 32776 ≤ (32776 : Word).toNat ∧ ((32775 : Word).toNat ≤ 32775 ∧ 32776 ≤ (32776 : Word).toNat) ∧ ((32775 : Word).toNat ≤ 32775 ∧ (32767 : Word).toNat ≤ 32775 ∧ 32776 ≤ (32776 : Word).toNat) := by decide +kernel

theorem witness_AndWritesBitwiseAnd : (resolve sample 32775 = .ok 9 ∧ resolve sample 32767 = .ok 32767 ∧ (32775 : Word).toNat ≤ 32775) ∧ 32776 ≤ (32776 : Word).toNat ∧ ((32775 : Word).toNat ≤ 32775 ∧ 32776 ≤ (32776 : Word).toNat) ∧ ((32775 : Word).toNat ≤ 32775 ∧ (32767 : Word).toNat ≤ 32775 ∧ 32776 ≤ (32776 : Word).toNat) := by decide +kernel

theorem witness_OrWritesBitwiseOr : (resolve sample 32775 = .ok 9 ∧ resolve sample 32767 = .ok 32767 ∧ (32775 : Word).toNat ≤ 32775) ∧ 32776 ≤ (32776 : Word).toNat ∧ ((32775 : Word).toNat ≤ 32775 ∧ 32776 ≤ (32776 : Word).toNat) ∧ ((32775 : Word).toNat ≤ 32775 ∧ (32767 : Word).toNat ≤ 32775 ∧ 32776 ≤ (32776 : Word).toNat) := by decide +kernel

theorem witness_ModWritesRemainder : (resolve sample 32775 = .ok 9 ∧ resolve sample 1 = .ok 1 ∧ (1 : Word).toNat ≠ 0 ∧ (32775 : Word).toNat ≤ 32775) ∧ 32776 ≤ (32776 : Word).toNat ∧ ((32775 : Word).toNat ≤ 32775 ∧ 32776 ≤ (32776 : Word).toNat) ∧ ((32775 : Word).toNat ≤ 32775 ∧ resolve sample 0 = .ok 0 ∧ (0 : Word).toNat = 0) ∧ ((32775 : Word).toNat ≤ 32775 ∧ resolve sample 1 = .ok 1 ∧ (1 : Word).toNat ≠ 0 ∧ 32776 ≤ (32776 : Word).toNat) := by decide +kernel

theorem witness_JmpSetsPcToTarget : resolve sample 32775 = .ok 9 ∧ 32776 ≤ (32776 : Word).toNat := by decide +kernel

theorem witness_JtJumpsOnNonZero : (resolve sample 32775 = .ok 9 ∧ resolve sample 32767 = .ok 32767) ∧ 32776 ≤ (32776 : Word).toNat ∧ ((32775 : Word).toNat ≤ 32775 ∧ 32776 ≤ (32776 : Word).toNat) := by decide +kernel

theorem witness_JfJumpsOnZero : (resolve sample 32775 = .ok 9 ∧ resolve sample 32767 = .ok 32767) ∧ 32776 ≤ (32776 : Word).toNat ∧ ((32775 : Word).toNat ≤ 32775 ∧ 32776 ≤ (32776 : Word).toNat) := by decide +kernel

theorem witness_CallPushesReturnAddress : (resolve sample 32775 = .ok 9 ∧ sample.config.stackCapacity ≠ some sample.stack.length) ∧ 32776 ≤ (32776 : Word).toNat ∧ ((32775 : Word).toNat ≤ 32775 ∧ full.config.stackCapacity = some full.stack.length) := by decide +kernel

theorem witness_PushPushesResolvedOperand : (resolve sample 32775 = .ok 9 ∧ sample.config.stackCapacity ≠ some sample.stack.length) ∧ 32776 ≤ (32776 : Word).toNat ∧ ((32775 : Word).toNat ≤ 32775 ∧ full.config.stackCapacity = some full.stack.length) := by decide +kernel

theorem witness_RetPopsOrHalts : sample.stack = [7] ++ [4] ∧ bare.stack = [] := by decide +kernel

theorem witness_PopWritesTheTopWord : (sample.stack = [7] ++ [4] ∧ (32775 : Word).toNat ≤ 32775) ∧ bare.stack = [] ∧ (sample.stack ≠ [] ∧ 32776 ≤ (32776 : Word).toNat) := by decide +kernel

theorem witness_RmemCopiesAddressedWord : (resolve sample 32775 = .ok 9 ∧ memRead sample 9 = .ok 0 ∧ (32775 : Word).toNat ≤ 32775) ∧ 32776 ≤ (32776 : Word).toNat ∧ (∃ s, resolve s 32775 = .ok 32776 ∧ 32776 ≤ (32776 : Word).toNat) ∧ (∃ s, resolve s 32775 = .ok 32775 ∧ (32775 : Word).toNat ≤ 32775 ∧ 32776 ≤ (32776 : Word).toNat) := ⟨by decide +kernel, by decide +kernel, ⟨{ sample with regs := { RegFile.zero with r7 := 32776 } }, by decide +kernel⟩, { sample with regs := { RegFile.zero with r7 := 32775 } }, by decide +kernel⟩

theorem witness_WmemStoresAtResolvedAddress : (∃ s, resolve s 32775 = .ok 32775 ∧ resolve s 32767 = .ok 32767 ∧ (32775 : Word).toNat ≤ 32775) ∧ 32776 ≤ (32776 : Word).toNat ∧ ((32775 : Word).toNat ≤ 32775 ∧ 32776 ≤ (32776 : Word).toNat) ∧ (∃ s, resolve s 32775 = .ok 32776 ∧ (32775 : Word).toNat ≤ 32775 ∧ 32776 ≤ (32776 : Word).toNat) := ⟨⟨{ sample with regs := { RegFile.zero with r7 := 32775 } }, by decide +kernel⟩, by decide +kernel, by decide +kernel, { sample with regs := { RegFile.zero with r7 := 32776 } }, by decide +kernel⟩

theorem witness_OutEmitsLowByte : resolve sample 32775 = .ok 9 ∧ 32776 ≤ (32776 : Word).toNat := by decide +kernel

theorem witness_InTakesQueuedCodeOrWaits : (sample.inputQueue = 65 :: [] ∧ (32775 : Word).toNat ≤ 32775) ∧ (sample.inputQueue ≠ [] ∧ 32776 ≤ (32776 : Word).toNat) ∧ bare.inputQueue = [] := by decide +kernel

/-- A core that waits on `in` with the given dest and answers. -/
def waiting (a : Word) (answers : List HostAnswer) : State :=
  { image [20, a] with run := .awaitingInput, hostAnswers := answers }

theorem waiting_at_in_valid (answers : List HostAnswer) : InstructionAt (waiting 32775 answers) (.in_ 32775) :=
  show InstructionAt (waiting 32775 []) (.in_ 32775) by unfold InstructionAt; decide +kernel

theorem waiting_at_in_invalid (answers : List HostAnswer) : InstructionAt (waiting 32776 answers) (.in_ 32776) :=
  show InstructionAt (waiting 32776 []) (.in_ 32776) by unfold InstructionAt; decide +kernel

theorem witness_HostAnswerEndsTheWait : (∃ s l, s.run = .awaitingInput ∧ InstructionAt s (.in_ 32775) ∧ s.hostAnswers = .line l :: [] ∧ (32775 : Word).toNat ≤ 32775) ∧ (∃ s l, s.run = .awaitingInput ∧ InstructionAt s (.in_ 32776) ∧ s.hostAnswers = .line l :: [] ∧ 32776 ≤ (32776 : Word).toNat) ∧ (∃ s, s.run = .awaitingInput ∧ InstructionAt s (.in_ 32775) ∧ s.hostAnswers = .endOfStream :: []) ∧ (∃ s, s.run = .awaitingInput ∧ InstructionAt s (.in_ 32775) ∧ s.hostAnswers = .readFailure :: []) := ⟨⟨waiting 32775 [.line (text 65 [])], text 65 [], rfl, waiting_at_in_valid _, rfl, by decide⟩, ⟨waiting 32776 [.line (text 65 [])], text 65 [], rfl, waiting_at_in_invalid _, rfl, by decide⟩, ⟨waiting 32775 [.endOfStream], rfl, waiting_at_in_valid _, rfl⟩, waiting 32775 [.readFailure], rfl, waiting_at_in_valid _, rfl⟩

theorem witness_LineDecodesToCharacterCodes : (∃ c ∈ lineChars mixedLine, c.rest = [] ∧ c.first.toNat < 128) ∧ Config.standard.inputDecode.lookup mixedLine = none ∧ (mixedConfig.inputDecode.lookup mixedLine = some [⟨960, []⟩, ⟨128, []⟩] ∧ ([⟨960, []⟩, ⟨128, []⟩] : List Codes).length = ((lineChars mixedLine).filter (fun c => !isAscii c)).length) ∧ (∀ c ∈ lineChars (text 127 [10]), c.rest = [] ∧ c.first.toNat < 128) := by decide

theorem witness_StreamIsFramedIntoLines : text 65 [10] ∈ linesOf (charactersOfBytes [65, 10, 66]) ∧ text 65 [10] ∈ (linesOf (charactersOfBytes [65, 10, 66])).dropLast := by decide

theorem witness_ImageFillsMemory : (([0x34, 0x12] : List Byte).length = 2 * 1 ∧ 1 ≤ 32768) ∧ 32767 < 32768 := by decide

theorem witness_ImageFillsMemory_largest : (List.replicate 65536 (1 : Byte)).length = 2 * 32768 ∧ 32768 ≤ 32768 := ⟨List.length_replicate, le_refl _⟩

theorem witness_BadImagesAreRefused : ([1] : List Byte).length % 2 = 1 ∧ (List.replicate 65538 (1 : Byte)).length % 2 = 0 ∧ 65536 < (List.replicate 65538 (1 : Byte)).length := ⟨rfl, by rw [List.length_replicate], by rw [List.length_replicate]; decide⟩

theorem witness_UnifiedReadDecodesAddress : (32767 : Word).toNat ≤ 32767 ∧ (32768 : Word).toNat = 32768 + (0 : Fin 8).val ∧ (32775 : Word).toNat = 32768 + (7 : Fin 8).val ∧ 32776 ≤ (32776 : Word).toNat := by decide

theorem witness_ResolveGivesOperandValue : (32767 : Word).toNat ≤ 32767 ∧ (32768 : Word).toNat = 32768 + (0 : Fin 8).val ∧ (32775 : Word).toNat = 32768 + (7 : Fin 8).val ∧ 32776 ≤ (32776 : Word).toNat := by decide

theorem witness_UnifiedWriteStoresOneWord : ((32767 : Word).toNat ≤ 32775 ∧ (32767 : Word).toNat ≤ 32767) ∧ ((32768 : Word).toNat ≤ 32775 ∧ 32768 ≤ (32768 : Word).toNat) ∧ (32775 : Word).toNat ≤ 32775 ∧ 32776 ≤ (32776 : Word).toNat := by decide

theorem witness_CanonicalMemoriesReadingAlikeAreEqual : Memory.wf [(0, 1), (32767, 65535)] = true ∧ ∀ a : Nat, a < 32768 → Memory.read [(0, 1), (32767, 65535)] a = Memory.read [(0, 1), (32767, 65535)] a := ⟨rfl, fun _ _ => rfl⟩

theorem witness_OpcodeMapOfTheTable : 22 ≤ (22 : Word).toNat ∧ 22 ≤ (65535 : Word).toNat := by decide

theorem witness_EncodeOfDecodeGivesWordsBack : decode [19, 65535, 7] = .instruction (.out 65535) [7] := by decide

theorem witness_OpcodesAbove21AreUnassigned : decode [22] = .unassigned 22 [] ∧ 22 ≤ (22 : Word).toNat := by decide

theorem witness_StepRunsInstructionAtPc : sample.run = .running ∧ InstructionAt sample .noop := ⟨rfl, sample_at_noop⟩

theorem witness_PcPastAnInstructionDoesNotWrap : InstructionAt sample .noop ∧ InstructionAt { State.reset with pc := 32775 } .halt := ⟨sample_at_noop, by unfold InstructionAt; decide +kernel⟩

theorem witness_UnassignedOpcodeIsNoopOrFault : (∃ s, s.run = .running ∧ memRead s s.pc = .ok 22 ∧ 22 ≤ (22 : Word).toNat ∧ s.config.unknownOpcodePolicy = .noop) ∧ (∃ s, s.run = .running ∧ memRead s s.pc = .ok 22 ∧ 22 ≤ (22 : Word).toNat ∧ s.config.unknownOpcodePolicy = .fault) := ⟨⟨image [22], by decide +kernel⟩, { image [22] with config := { Config.standard with unknownOpcodePolicy := .fault } }, by decide +kernel⟩

theorem witness_FetchFaultsAboveTheRegisters : (∃ s : State, s.run = .running ∧ 32776 ≤ s.pc.toNat) ∧ (∃ s : State, s.run = .running ∧ memRead s s.pc = .ok 6 ∧ (encode (.jmp 0)).head? = some 6 ∧ 32776 < s.pc.toNat + (encode (.jmp 0)).length) := ⟨⟨{ State.reset with pc := 32776 }, by decide +kernel⟩, { State.reset with pc := 32775, regs := { RegFile.zero with r7 := 6 } }, by decide +kernel⟩

theorem witness_NextStepExistsUnlessEndedOrStuck : sample.run = .running ∧ (waiting 1 [.endOfStream]).run = .awaitingInput ∧ (waiting 1 [.endOfStream]).hostAnswers ≠ [] := by decide +kernel

theorem witness_StopsAreEndedOrAwaitingHost : ended { sample with run := .halted .haltOpcode 0 } = true ∧ ended { sample with run := .faulted .divideByZero 0 (some 11) } = true ∧ (waiting 1 []).run = .awaitingInput ∧ (waiting 1 []).hostAnswers = [] := by decide +kernel

theorem sample_inv : Inv sample :=
  ⟨rfl, by simp [sample, image, State.reset, Config.standard], trivial⟩

theorem image_inv_mod : Inv (image [11, 40000, 5, 0]) :=
  ⟨rfl, by simp [image, State.reset, Config.standard], trivial⟩

theorem waiting_inv : Inv (waiting 32775 [.endOfStream]) :=
  ⟨rfl, by simp [waiting, image, State.reset, Config.standard], rfl, rfl, 32775, rfl⟩

theorem full_inv : Inv full :=
  ⟨rfl, by simp [full, sample, image, State.reset, Config.standard], trivial⟩

theorem witness_StepKeepsTheInvariant : (Inv sample ∧ step sample = .next (advance 1 sample)) ∧ (Inv full ∧ step full = .next (advance 1 full)) ∧ (Inv (waiting 32775 [.endOfStream]) ∧ ∃ t, step (waiting 32775 [.endOfStream]) = .next t) := ⟨⟨sample_inv, rfl⟩, ⟨full_inv, rfl⟩, waiting_inv, _, rfl⟩

theorem witness_BootedImageMeetsTheInvariant : ∃ s, bootImage [0x15, 0x00] = .ok s := ⟨_, rfl⟩

theorem witness_FaultEntryRecordsAndIsFinal : (∃ s t, Inv s ∧ step s = .next t ∧ t.run = .faulted .divideByZero 0 (some 11)) ∧ (∃ s t, Inv s ∧ step s = .next t ∧ t.run = .faulted .ioFailure 0 (some 20)) ∧ (∃ s t, Inv s ∧ step s = .next t ∧ t.run = .faulted (.invalidAddress 32776) 32776 none) := ⟨⟨_, _, image_inv_mod, rfl, rfl⟩, ⟨_, _, waiting_inv, rfl, rfl⟩, { State.reset with pc := 32776 }, _, ⟨rfl, by simp [State.reset, Config.standard], trivial⟩, rfl, rfl⟩

theorem witness_FaultCommitsNothing : (∃ i s t, s.run = .running ∧ exec i s = .next t ∧ t.run = .faulted .divideByZero 0 (some 11)) ∧ (∃ s t, step s = .next t ∧ s.run = .running ∧ t.run = .faulted .divideByZero 0 (some 11)) ∧ (∃ s t, step s = .next t ∧ s.run = .awaitingInput ∧ t.run = .faulted .ioFailure 0 (some 20)) ∧ (∃ s t, step s = .next t ∧ s.run = .awaitingInput ∧ s.hostAnswers = [.line (text 65 [10])] ∧ t.run = .faulted (.invalidAddress 32776) 0 (some 20)) := ⟨⟨.mod 40000 5 0, sample, _, rfl, rfl, rfl⟩, ⟨image [11, 40000, 5, 0], _, rfl, rfl, rfl⟩, ⟨waiting 32775 [.endOfStream], _, rfl, rfl, rfl⟩, waiting 32776 [.line (text 65 [10])], _, rfl, rfl, rfl, rfl⟩

theorem witness_GracefulHaltChangesRunStateAlone : (∃ s t, step s = .next t ∧ t.run = .halted .haltOpcode 0) ∧ (∃ s t, step s = .next t ∧ t.run = .halted .returnEmptyStack 0) := ⟨⟨image [0], _, rfl, rfl⟩, image [18], _, rfl, rfl⟩

theorem witness_OnlyStackInstructionsReachTheStack : (∀ a, Instr.noop ≠ .push a) ∧ (∀ a, Instr.noop ≠ .pop a) ∧ (∀ a, Instr.noop ≠ .call a) ∧ Instr.noop ≠ .ret := by simp

theorem witness_OnlyInReachesTheInputQueue : ∀ a, Instr.out 7 ≠ .in_ a := by simp

theorem witness_OutputGrowsOnlyByOut : ∃ t, step (image [19, 65]) = .next t ∧ t.output = [65] := ⟨_, rfl, rfl⟩

theorem witness_LineRequestOnlyWhenQueueEmpty : ∃ t, step (image [20, 32768]) = .next t ∧ HostEvent.lineRequest ∈ transitionEvents (image [20, 32768]) t := ⟨_, rfl, by decide⟩

/-- `wmem r0 5` at the highest pc at which the next opcode word exists, r0 holding that word's address. -/
def overwriting : State :=
  { State.reset with
    pc := 32772
    regs := { RegFile.zero with r0 := 32775, r4 := 16, r5 := 32768, r6 := 5 } }

theorem witness_StoreIntoNextInstructionIsFetched : overwriting.run = .running ∧ InstructionAt overwriting (.wmem 32768 5) ∧ overwriting.pc.toNat ≤ 32772 ∧ resolve overwriting 32768 = .ok (overwriting.pc + 3) ∧ resolve overwriting 5 = .ok 5 := ⟨rfl, by unfold InstructionAt; decide +kernel, by decide +kernel⟩

theorem witness_PopReturnsTheTopWord : sample.stack = [7] ++ [4] ∧ bare.stack = [] := by decide +kernel

theorem witness_PushAppendsUnlessFull : sample.config.stackCapacity ≠ some sample.stack.length ∧ full.config.stackCapacity = some full.stack.length := by decide +kernel

theorem witness_RetAfterCallResumes : resolve sample 32775 = .ok 9 ∧ sample.config.stackCapacity ≠ some sample.stack.length := by decide +kernel

theorem witness_ResetLeavesSpecifiedState : (32775 : Word).toNat ≤ 32775 := by decide

end Sys2Proof.Tests
end

/-! PROOF. The state right after reset, and the stack's pop (10_state.md sections 3, 4 and 7). -/

namespace Sys2Proof.Machine

/-! ### The reset state -/

/-- A memory address reads the word of memory (R52). -/
theorem memRead_memory (s : State) {addr : Word} (h : addr.toNat ≤ 32767) :
    memRead s addr = .ok (Memory.read s.mem addr.toNat) := by
  simp [memRead, locate_memory h]

/-- A register address reads the register (R52). -/
theorem memRead_register (s : State) {addr : Word} {i : Fin 8} (h : addr.toNat = 32768 + i.val) :
    memRead s addr = .ok (s.regs.get i) := by
  simp [memRead, locate_register h]

@[simp] theorem RegFile.get_zero (i : Fin 8) : RegFile.zero.get i = 0 := by
  fin_cases i <;> rfl

/-- Every existing address reads 0 at reset: memory lists nothing, and every register is 0 (R25, R241). -/
theorem memRead_reset {addr : Word} (h : addr.toNat ≤ 32775) : memRead State.reset addr = .ok 0 := by
  rcases locate_cases addr with ⟨hm, -⟩ | ⟨i, hi, -⟩ | ⟨hn, -⟩
  · rw [memRead_memory State.reset hm]
    rfl
  · rw [memRead_register State.reset hi]
    exact congrArg Except.ok (RegFile.get_zero i)
  · omega

/-- Settles O1: the two parts of the address space by `memRead_reset`, the other fields by definition. -/
theorem resetLeavesSpecifiedState : Obligations.ResetLeavesSpecifiedState :=
  ⟨fun _ => memRead_reset, RegFile.get_zero, rfl, rfl, rfl, rfl, rfl⟩

/-! ### Pop -/

/-- A pop on an empty stack fails (R32). -/
theorem pop_empty {s : State} (h : s.stack = []) : pop s = none := by
  simp [pop, h]

/-- A pop takes the top word and leaves the rest (R32). -/
theorem pop_append {s : State} {rest : List Word} {v : Word} (h : s.stack = rest ++ [v]) :
    pop s = some (v, { s with stack := rest }) := by
  simp [pop, h]

/-- To the instruction `pop` an empty stack is the fault `StackUnderflow`, whatever the dest (R122). -/
theorem exec_pop_empty (a : Word) {s : State} (h : s.stack = []) :
    exec (.pop a) s = .next (raiseFault .stackUnderflow (some 3) s) := by
  simp [exec, execPop, pop_empty h]

/-- To `ret` an empty stack is a graceful halt (R106). -/
theorem exec_ret_empty {s : State} (h : s.stack = []) :
    exec .ret s = .next (haltRun .returnEmptyStack s) := by
  simp [exec, execRet, pop_empty h]

/-- Settles O31: what a pop gives on each kind of stack, and what the failure means to `pop` and to `ret`. -/
theorem popReturnsTheTopWord : Obligations.PopReturnsTheTopWord := by
  refine ⟨fun _ _ _ => pop_append, fun s hs => ⟨pop_empty hs, fun a => ?_, ?_⟩⟩
  · exact ⟨_, exec_pop_empty a hs, rfl⟩
  · exact ⟨_, s.pc, exec_ret_empty hs, rfl⟩

end Sys2Proof.Machine

/-! PROOF. The unified address space (20_memory.md rules R52, R53 and R57). -/

namespace Sys2Proof.Machine

/-! ### The unified read -/

/-- Settles O4: one lemma of the read per range of addresses. -/
theorem unifiedReadDecodesAddress : Obligations.UnifiedReadDecodesAddress :=
  fun s _ => ⟨memRead_memory s, fun _ => memRead_register s, memRead_missing s⟩

/-! ### The unified write -/

/-- A write, seen through the unified read, changes its own address only (R53). -/
theorem memWrite_onlyWrote {s t : State} {addr v : Word} (h : memWrite s addr v = .ok t) : OnlyWrote addr v s t :=
  ⟨memRead_memWrite_same h, fun _ => memRead_memWrite_other h⟩

/-- A write leaves every field but memory, registers and pc (R53). -/
theorem memWrite_sameRest {s t : State} {addr v : Word} (h : memWrite s addr v = .ok t) : SameRest s t := by
  rw [memWrite_rest h]
  exact ⟨rfl, rfl, rfl, rfl, rfl, rfl⟩

theorem memWrite_pc {s t : State} {addr v : Word} (h : memWrite s addr v = .ok t) : t.pc = s.pc := by
  rw [memWrite_rest h]

/-- A write to a memory address never changes a register (R57). -/
theorem memWrite_memory_regs {s t : State} {addr v : Word} (h : memWrite s addr v = .ok t)
    (hm : addr.toNat ≤ 32767) : t.regs = s.regs := by
  rcases memWrite_cases h with ⟨-, rfl⟩ | ⟨i, hi, -⟩
  · rfl
  · omega

/-- A write to a register address never changes a memory cell (R57). -/
theorem memWrite_register_mem {s t : State} {addr v : Word} (h : memWrite s addr v = .ok t)
    (hr : 32768 ≤ addr.toNat) : t.mem = s.mem := by
  rcases memWrite_cases h with ⟨hm, -⟩ | ⟨i, -, rfl⟩
  · omega
  · rfl

/-- Settles O5: an existing address takes the write, whose effect and frame are the lemmas above; a missing one fails. -/
theorem unifiedWriteStoresOneWord : Obligations.UnifiedWriteStoresOneWord := by
  refine fun s addr v => ⟨fun hr => ?_, memWrite_missing s v⟩
  obtain ⟨t, ht⟩ := memWrite_exists s v hr
  exact ⟨t, ht, memWrite_onlyWrote ht, memWrite_sameRest ht, memWrite_pc ht, memWrite_memory_regs ht,
    memWrite_register_mem ht⟩

end Sys2Proof.Machine

/-! PROOF. The operand resolver (30_encoding.md rule R84). -/

namespace Sys2Proof.Machine

/-- A word that names a memory address is a literal (R84). -/
theorem resolve_literal (s : State) {w : Word} (h : w.toNat ≤ 32767) : resolve s w = .ok w := by
  simp [resolve, locate_memory h]

/-- A word that names a register gives its contents as they stand, not resolved again (R84). -/
theorem resolve_register (s : State) {w : Word} {i : Fin 8} (h : w.toNat = 32768 + i.val) :
    resolve s w = .ok (s.regs.get i) := by
  simp [resolve, locate_register h]

/-- Settles O7: one lemma of the resolver per range of operand words. -/
theorem resolveGivesOperandValue : Obligations.ResolveGivesOperandValue :=
  fun s _ => ⟨resolve_literal s, fun _ => resolve_register s, resolve_missing s⟩

end Sys2Proof.Machine

/-! PROOF. `noop`, `jmp` and `call` (40_control.md rules R102, R105 and R107). -/

namespace Sys2Proof.Machine

/-! ### Push -/

/-- A push onto a full bounded stack fails (R31). -/
theorem push_full (v : Word) {s : State} (h : s.config.stackCapacity = some s.stack.length) :
    push v s = .error .stackOverflow := by
  rcases push_cases v s with ⟨-, hp⟩ | ⟨hn, -⟩
  · exact hp
  · exact absurd h hn

/-- A push onto any other stack appends its word at the top (R31). -/
theorem push_append (v : Word) {s : State} (h : s.config.stackCapacity ≠ some s.stack.length) :
    push v s = .ok { s with stack := s.stack ++ [v] } := by
  rcases push_cases v s with ⟨hf, -⟩ | ⟨-, hp⟩
  · exact absurd hf h
  · exact hp

/-! ### noop -/

/-- Settles O35: `noop` is an advance by one word. -/
theorem noopOnlyAdvances : Obligations.NoopOnlyAdvances :=
  ⟨rfl, fun _ => rfl⟩

/-! ### jmp -/

theorem exec_jmp_resolved {s : State} {a va : Word} (h : resolve s a = .ok va) :
    exec (.jmp a) s = .next (jumpTo va s) := by
  simp [exec, execJmp, h]

theorem exec_jmp_invalid (s : State) {a : Word} (h : 32776 ≤ a.toNat) :
    exec (.jmp a) s = .next (raiseFault (.invalidOperand a) (some 6) s) := by
  simp [exec, execJmp, resolve_missing s h]

/-- Settles O36: one lemma of `jmp` per outcome of the resolver. -/
theorem jmpSetsPcToTarget : Obligations.JmpSetsPcToTarget :=
  fun _ s => ⟨rfl, fun _ => exec_jmp_resolved, fun h => ⟨_, exec_jmp_invalid s h, rfl⟩⟩

/-! ### call -/

theorem exec_call_resolved {s : State} {a va : Word} (ha : resolve s a = .ok va)
    (hs : s.config.stackCapacity ≠ some s.stack.length) :
    exec (.call a) s = .next (jumpTo va { s with stack := s.stack ++ [s.pc + 2] }) := by
  simp [exec, execCall, ha, push_append _ hs]

/-- The target is resolved before the push, so its fault comes whether the stack is full or not (R105). -/
theorem exec_call_invalid (s : State) {a : Word} (h : 32776 ≤ a.toNat) :
    exec (.call a) s = .next (raiseFault (.invalidOperand a) (some 17) s) := by
  simp [exec, execCall, resolve_missing s h]

theorem exec_call_full {s : State} {a va : Word} (ha : resolve s a = .ok va)
    (hs : s.config.stackCapacity = some s.stack.length) :
    exec (.call a) s = .next (raiseFault .stackOverflow (some 17) s) := by
  simp [exec, execCall, ha, push_full _ hs]

/-- Settles O39: one lemma of `call` per outcome of its two phases; fault entry keeps the stack. -/
theorem callPushesReturnAddress : Obligations.CallPushesReturnAddress := by
  refine fun a s => ⟨rfl, fun _ => exec_call_resolved, fun ha => ?_, fun ha hs => ?_⟩
  · exact ⟨_, exec_call_invalid s ha, raiseFault_run .., raiseFault_stack ..⟩
  · obtain ⟨va, hva⟩ := resolve_exists s ha
    exact ⟨_, exec_call_full hva hs, raiseFault_run ..⟩

end Sys2Proof.Machine

/-! PROOF. `set` and `pop` (41_data_movement.md rules R120 and R122). -/

namespace Sys2Proof.Machine

/-! ### The end of an instruction that writes a dest: the write, then the advance -/

/-- Advancing pc after a write adds nothing to what the write changed in memory and registers (R53). -/
theorem memWrite_advance_onlyWrote {s t : State} {a v : Word} (n : Word) (h : memWrite s a v = .ok t) :
    OnlyWrote a v s (advance n t) := by
  simpa [OnlyWrote] using memWrite_onlyWrote h

theorem memWrite_advance_sameRest {s t : State} {a v : Word} (n : Word) (h : memWrite s a v = .ok t) :
    SameRest s (advance n t) := by
  simpa [SameRest] using memWrite_sameRest h

theorem memWrite_advance_pc {s t : State} {a v : Word} (n : Word) (h : memWrite s a v = .ok t) :
    (advance n t).pc = s.pc + n := by
  simp [memWrite_pc h]

/-- An instruction that resolves `b`, then writes a function of its value at the dest `a`, meets the template: its
outcomes are those of the two phases, in their order (R91, R203). -/
theorem writesResultOfOne_of_exec {mk : Word → Word → Instr} {op : Word} {result : Word → Word → Prop}
    (f : Word → Word) (henc : ∀ a b, encode (mk a b) = [op, a, b])
    (hexec : ∀ a b s, exec (mk a b) s = conclude op s do
      let vb ← resolve s b
      let t ← memWrite s a (f vb)
      .ok (advance 3 t))
    (hresult : ∀ vb, result vb (f vb)) : WritesResultOfOne mk op result := by
  refine fun a b s => ⟨henc a b, fun vb hb ha => ?_, fun hb => ?_, fun hb ha => ?_⟩
  · obtain ⟨t, ht⟩ := memWrite_exists s (f vb) ha
    have hnext : exec (mk a b) s = .next (advance 3 t) := by simp [hexec, hb, ht]
    exact ⟨_, _, hnext, hresult vb, memWrite_advance_onlyWrote 3 ht, memWrite_advance_sameRest 3 ht,
      memWrite_advance_pc 3 ht⟩
  · exact ⟨raiseFault (.invalidOperand b) (some op) s, by simp [hexec, resolve_missing s hb], raiseFault_run ..⟩
  · obtain ⟨vb, hvb⟩ := resolve_exists s hb
    exact ⟨raiseFault (.invalidAddress a) (some op) s, by simp [hexec, hvb, memWrite_missing s (f vb) ha],
      raiseFault_run ..⟩

/-! ### set -/

/-- Settles O41: `set` is the template's instruction whose result is the resolved value itself. -/
theorem setWritesResolvedValue : Obligations.SetWritesResolvedValue :=
  writesResultOfOne_of_exec (fun vb => vb) (fun _ _ => rfl) (fun _ _ _ => rfl) (fun _ => rfl)

/-! ### pop -/

/-- The top word is written in the state whose stack has already lost it (R122). -/
theorem exec_pop_written {s t : State} {a v : Word} {rest : List Word} (hs : s.stack = rest ++ [v])
    (ht : memWrite { s with stack := rest } a v = .ok t) : exec (.pop a) s = .next (advance 2 t) := by
  simp [exec, execPop, pop_append hs, ht]

/-- A bad dest is a fault of the state before the pop, so the stack keeps its top word (R122, R204). -/
theorem exec_pop_invalid {s : State} {a v : Word} {rest : List Word} (hs : s.stack = rest ++ [v])
    (ha : 32776 ≤ a.toNat) : exec (.pop a) s = .next (raiseFault (.invalidAddress a) (some 3) s) := by
  simp [exec, execPop, pop_append hs, memWrite_missing _ v ha]

/-- Settles O43: one lemma of `pop` per outcome of its two phases, the pop and the write; fault entry keeps the stack. -/
theorem popWritesTheTopWord : Obligations.PopWritesTheTopWord := by
  refine fun a s => ⟨rfl, fun rest v hs ha => ?_, fun hs => ?_, fun hs ha => ?_⟩
  · obtain ⟨t, ht⟩ := memWrite_exists { s with stack := rest } v ha
    obtain ⟨hstack, hqueue, hout, hrun, hanswers, hconfig⟩ := memWrite_advance_sameRest 2 ht
    have hpc := memWrite_advance_pc 2 ht
    have hwrote := memWrite_advance_onlyWrote 2 ht
    exact ⟨_, exec_pop_written hs ht, hwrote, hstack, hpc, hqueue, hout, hrun, hanswers, hconfig⟩
  · exact ⟨_, exec_pop_empty a hs, raiseFault_run .., raiseFault_stack ..⟩
  · obtain ⟨hempty, -⟩ | ⟨v, rest, hv, -⟩ := pop_cases s
    · exact absurd hempty hs
    · exact ⟨_, exec_pop_invalid hv ha, raiseFault_run .., raiseFault_stack ..⟩

end Sys2Proof.Machine

/-! PROOF. `add` and `mult` (43_arith_logic.md rules R152 and R153). -/

namespace Sys2Proof.Machine

/-! ### The template of a dest and two values -/

/-- An instruction that resolves `b` and `c`, then writes a function of their values at the dest `a`, meets the template:
its outcomes are those of the three phases, in their order (R91, R203). -/
theorem writesResultOfTwo_of_exec {mk : Word → Word → Word → Instr} {op : Word} {result : Word → Word → Word → Prop}
    (f : Word → Word → Word) (henc : ∀ a b c, encode (mk a b c) = [op, a, b, c])
    (hexec : ∀ a b c s, exec (mk a b c) s = conclude op s do
      let vb ← resolve s b
      let vc ← resolve s c
      let t ← memWrite s a (f vb vc)
      .ok (advance 4 t))
    (hresult : ∀ vb vc, result vb vc (f vb vc)) : WritesResultOfTwo mk op result := by
  refine fun a b c s => ⟨henc a b c, fun vb vc hb hc ha => ?_, fun hb => ?_, fun hb hc => ?_, fun hb hc ha => ?_⟩
  · obtain ⟨t, ht⟩ := memWrite_exists s (f vb vc) ha
    have hnext : exec (mk a b c) s = .next (advance 4 t) := by simp [hexec, hb, hc, ht]
    exact ⟨_, _, hnext, hresult vb vc, memWrite_advance_onlyWrote 4 ht, memWrite_advance_sameRest 4 ht,
      memWrite_advance_pc 4 ht⟩
  · exact ⟨raiseFault (.invalidOperand b) (some op) s, by simp [hexec, resolve_missing s hb], raiseFault_run ..⟩
  · obtain ⟨vb, hvb⟩ := resolve_exists s hb
    exact ⟨raiseFault (.invalidOperand c) (some op) s, by simp [hexec, hvb, resolve_missing s hc], raiseFault_run ..⟩
  · obtain ⟨vb, hvb⟩ := resolve_exists s hb
    obtain ⟨vc, hvc⟩ := resolve_exists s hc
    exact ⟨raiseFault (.invalidAddress a) (some op) s,
      by simp [hexec, hvb, hvc, memWrite_missing s (f vb vc) ha], raiseFault_run ..⟩

/-! ### Numbers modulo 32768 -/

/-- A number reduced modulo 32768 fits a word, so the word holds it exactly (R150). -/
theorem toNat_ofNat_mod_modulus (n : Nat) : (BitVec.ofNat 16 (n % modulus)).toNat = n % 32768 := by
  have hfits : n % 32768 < 2 ^ 16 := by omega
  rw [modulus_eq, BitVec.toNat_ofNat, Nat.mod_eq_of_lt hfits]

theorem sumMod_toNat (vb vc : Word) : (sumMod vb vc).toNat = (vb.toNat + vc.toNat) % 32768 :=
  toNat_ofNat_mod_modulus _

theorem productMod_toNat (vb vc : Word) : (productMod vb vc).toNat = (vb.toNat * vc.toNat) % 32768 :=
  toNat_ofNat_mod_modulus _

/-! ### add -/

/-- Settles O48: `add` is the template's instruction whose result is `sumMod`, whose value is `sumMod_toNat`. -/
theorem addWritesSumModulo : Obligations.AddWritesSumModulo :=
  writesResultOfTwo_of_exec sumMod (fun _ _ _ => rfl) (fun _ _ _ _ => rfl) sumMod_toNat

/-! ### mult -/

/-- Settles O49: `mult` is the template's instruction whose result is `productMod`, whose value is `productMod_toNat`. -/
theorem multWritesProductModulo : Obligations.MultWritesProductModulo :=
  writesResultOfTwo_of_exec productMod (fun _ _ _ => rfl) (fun _ _ _ _ => rfl) productMod_toNat

end Sys2Proof.Machine

/-! PROOF. `out` (44_io.md rule R171). -/

namespace Sys2Proof.Machine

/-- A resolved operand emits its bits 7..0 (R171). -/
theorem exec_out_resolved {s : State} {a va : Word} (h : resolve s a = .ok va) :
    exec (.out a) s = .next (advance 2 (emit (va.setWidth 8) s)) := by
  simp [exec, execOut, h]

/-- The operand is resolved before the byte is emitted, so its fault comes with the output as before (R171). -/
theorem exec_out_invalid (s : State) {a : Word} (h : 32776 ≤ a.toNat) :
    exec (.out a) s = .next (raiseFault (.invalidOperand a) (some 19) s) := by
  simp [exec, execOut, resolve_missing s h]

/-- Settles O54: one lemma of `out` per outcome of the resolver; truncation to 8 bits is the remainder by 256, and fault
entry keeps the output. -/
theorem outEmitsLowByte : Obligations.OutEmitsLowByte := by
  refine fun a s => ⟨rfl, fun va hva => ?_, fun ha => ?_⟩
  · exact ⟨_, BitVec.toNat_setWidth 8 va, exec_out_resolved hva⟩
  · exact ⟨_, exec_out_invalid s ha, raiseFault_run .., raiseFault_output ..⟩

end Sys2Proof.Machine

/-! PROOF. Fault entry (60_exceptions.md rules R202, R205 and R224). -/

namespace Sys2Proof.Machine

/-! ### What each way into `Faulted` records -/

/-- What R202 says of the opcode recorded by a fault that begins in `s`: it is the word at pc, and it is missing only
where that word's address is (D2). -/
def OpcodeRecordTrue (s : State) : Option Word → Prop
  | some op => memRead s s.pc = .ok op
  | none => 32776 ≤ s.pc.toNat

/-- A running instruction comes to `Faulted` by fault entry alone, with its own opcode word. -/
theorem exec_faulted {i : Instr} {s t : State} {c : FaultCause} {p : Word} {o : Option Word}
    (hs : s.run = .running) (h : exec i s = .next t) (ht : t.run = .faulted c p o) :
    t = raiseFault c o s ∧ o = (encode i).head? := by
  cases exec_cases h with
  | faulted c' op hop h' =>
    subst h'
    cases ht
    exact ⟨rfl, hop.symm⟩
  | halted _ h' => simp [h'] at ht
  | returned _ _ h' => simp [h'] at ht
  | waits _ _ _ h' => simp [h'] at ht
  | runsOn hrun => simp [hrun, hs] at ht

/-- A running unassigned opcode comes to `Faulted` by fault entry alone, with its own word (R108). -/
theorem execUnassigned_faulted {u : Word} {s t : State} {c : FaultCause} {p : Word} {o : Option Word}
    (hs : s.run = .running) (h : execUnassigned u s = .next t) (ht : t.run = .faulted c p o) :
    t = raiseFault c o s ∧ o = some u := by
  unfold execUnassigned at h
  split at h <;> cases h
  · simp [hs] at ht
  · cases ht
    exact ⟨rfl, rfl⟩

/-- A failed fetch records the opcode word exactly if it could read it (R202). -/
theorem fetch_fault_opcodeRecordTrue {s : State} {c : FaultCause} {o : Option Word} (hf : fetch s = .fault c o) :
    OpcodeRecordTrue s o := by
  rcases fetch_fault hf with ⟨hread, rfl⟩ | ⟨opc, _, hread, _, _, rfl⟩
  · exact (memRead_error hread).2
  · exact hread

/-- The dest write and advance that end an `in` leave the run state. -/
theorem writeInput_run {a code : Word} {s t : State} (h : writeInput a code s = .ok t) : t.run = s.run := by
  obtain ⟨u, hu, rfl⟩ := writeInput_cases h
  rw [memWrite_rest hu]
  rfl

/-- Every fault in the wait of an `in` records pc and the opcode 20, whatever the host's answer (R173, R222). -/
theorem answerInput_faulted {s t : State} {c : FaultCause} {p : Word} {o : Option Word}
    (h : answerInput s = .next t) (ht : t.run = .faulted c p o) : p = s.pc ∧ o = some 20 := by
  unfold answerInput at h
  split at h
  case h_1 => cases h
  case h_2 | h_3 =>
    cases h
    cases ht
    exact ⟨rfl, rfl⟩
  case h_4 =>
    rcases conclude_cases h with hok | ⟨c', -, rfl⟩
    · obtain ⟨a, -, hw⟩ := phase_bind_ok hok
      simp [writeInput_run hw] at ht
    · cases ht
      exact ⟨rfl, rfl⟩

/-! ### A step into `Faulted` -/

/-- A running core comes to `Faulted` by fault entry alone, from each of the three things a fetch can give. -/
theorem step_running_faulted {s t : State} {c : FaultCause} {p : Word} {o : Option Word}
    (hs : s.run = .running) (h : step s = .next t) (ht : t.run = .faulted c p o) :
    t = raiseFault c o s ∧ OpcodeRecordTrue s o := by
  cases hf : fetch s with
  | instruction i =>
    obtain ⟨op, hread, hop⟩ := fetch_opcode hf
    obtain ⟨hentry, rfl⟩ := exec_faulted hs (step_instruction hs hf ▸ h) ht
    exact ⟨hentry, hop ▸ hread⟩
  | unassigned u =>
    obtain ⟨hentry, rfl⟩ := execUnassigned_faulted hs (step_unassigned hs hf ▸ h) ht
    exact ⟨hentry, (fetch_unassigned hf).1⟩
  | fault c' o' =>
    cases (step_fetch_fault hs hf).symm.trans h
    cases ht
    exact ⟨rfl, fetch_fault_opcodeRecordTrue hf⟩

/-- A core that waits in a state of the invariant stands on an `in`. -/
theorem Inv.memRead_awaiting {s : State} (hi : Inv s) (hs : s.run = .awaitingInput) : memRead s s.pc = .ok 20 := by
  have hrecord := hi.runRecordTrue
  rw [RunRecordTrue, hs] at hrecord
  obtain ⟨-, hopcode, -⟩ := hrecord
  exact hopcode

/-- No step is taken once a fault has ended the run (R205). -/
theorem step_of_faulted {s : State} {c : FaultCause} {p : Word} {o : Option Word} (hs : s.run = .faulted c p o) :
    step s = .fault .runEnded := by
  simp [step, hs]

/-- No step is taken once a graceful halt has ended the run (R90). -/
theorem step_of_halted {s : State} {k : HaltKind} {p : Word} (hs : s.run = .halted k p) :
    step s = .fault .runEnded := by
  simp [step, hs]

/-- The outcome reported of a fault holds what the fault recorded (R224). -/
theorem runOutcome_of_faulted {s : State} {c : FaultCause} {p : Word} {o : Option Word}
    (hs : s.run = .faulted c p o) : runOutcome s = some (.failure c p o) := by
  simp [runOutcome, hs]

/-- A step into `Faulted` records the pc it began at and the opcode word there; only a running or a waiting core has one. -/
theorem step_faulted_record {s t : State} {c : FaultCause} {p : Word} {o : Option Word}
    (hi : Inv s) (h : step s = .next t) (ht : t.run = .faulted c p o) : p = s.pc ∧ OpcodeRecordTrue s o := by
  cases hs : s.run with
  | running =>
    obtain ⟨rfl, hrecord⟩ := step_running_faulted hs h ht
    cases ht
    exact ⟨rfl, hrecord⟩
  | awaitingInput =>
    obtain ⟨hp, rfl⟩ := answerInput_faulted (step_awaiting hs ▸ h) ht
    exact ⟨hp, hi.memRead_awaiting hs⟩
  | halted k q => cases (step_of_halted hs).symm.trans h
  | faulted c' q o' => cases (step_of_faulted hs).symm.trans h

/-- Settles O22: `step_faulted_record` for what is recorded; the report and the end follow from the run state alone. -/
theorem faultEntryRecordsAndIsFinal : Obligations.FaultEntryRecordsAndIsFinal := by
  intro s t c p o hi h ht
  obtain ⟨hp, hrecord⟩ := step_faulted_record hi h ht
  refine ⟨hp, ?_, ?_, runOutcome_of_faulted ht, step_of_faulted ht⟩
  · rintro op rfl
    exact hrecord
  · rintro rfl
    exact hrecord

end Sys2Proof.Machine

/-! PROOF. Reset with an image (70_reset_and_hazards.md rule R241). -/

namespace Sys2Proof

/-- The words of an image, by recursion on their number: a word, like the pair of bytes it is made of, is 0 past the
end, so that the equation needs no bound on `k` (R241). -/
theorem wordsOfBytes_even {n : Nat} : ∀ {bytes : List Byte}, bytes.length = 2 * n →
    ∃ ws, wordsOfBytes bytes = some ws ∧ ws.length = n ∧
      ∀ k, (ws.getD k 0).toNat = (bytes.getD (2 * k) 0).toNat + 256 * (bytes.getD (2 * k + 1) 0).toNat := by
  induction n with
  | zero =>
    intro bytes h
    obtain rfl := List.length_eq_zero_iff.mp h
    exact ⟨[], rfl, rfl, fun _ => rfl⟩
  | succ n ih =>
    intro bytes h
    match bytes, h with
    | lo :: hi :: rest, h =>
      obtain ⟨ws, hws, hlen, hval⟩ := ih (bytes := rest) (by simp at h; omega)
      refine ⟨(hi ++ lo) :: ws, by simp [wordsOfBytes, hws], by simp [hlen], fun k => ?_⟩
      cases k with
      | zero => exact littleEndian_toNat lo hi
      | succ k => exact hval k

end Sys2Proof

namespace Sys2Proof.Machine

/-- An image whose words fit memory boots into the reset state with those words from address 0 (R241). -/
theorem bootImage_accepts {bytes : List Byte} {ws : List Word} (hws : wordsOfBytes bytes = some ws)
    (hfit : ws.length ≤ 32768) : bootImage bytes = .ok { State.reset with mem := Memory.ofWords 0 ws } := by
  simp [bootImage, hws, Nat.not_lt.mpr hfit]

/-- Memory filled from address 0 reads, through the unified read, the word in each place, and 0 past the last (R241). -/
theorem memRead_ofWords (s : State) (ws : List Word) {a : Nat} (ha : a < 32768) :
    memRead { s with mem := Memory.ofWords 0 ws } (BitVec.ofNat 16 a) = .ok (ws.getD a 0) := by
  have haddr : (BitVec.ofNat 16 a).toNat = a := Nat.mod_eq_of_lt (by omega)
  have hread := Memory.read_ofWords ws 0 a
  rw [Nat.zero_add] at hread
  rw [memRead_memory _ (by omega), haddr, hread]
  rfl

/-- Settles O2: the words of the image by `wordsOfBytes_even`, where memory holds them by `memRead_ofWords`. -/
theorem imageFillsMemory : Obligations.ImageFillsMemory := by
  intro bytes n hlen hn
  obtain ⟨ws, hws, hwslen, hval⟩ := wordsOfBytes_even hlen
  refine ⟨_, bootImage_accepts hws (hwslen ▸ hn), fun a ha => ⟨_, memRead_ofWords _ ws ha, ?_⟩, rfl⟩
  split
  · exact hval a
  · rw [List.getD_eq_default _ _ (by omega)]
    rfl

end Sys2Proof.Machine

/-! PROOF. The encoder and the decoder (30_encoding.md rules R80 to R88). -/

namespace Sys2Proof

/-! ### A layout and the operand words it takes -/

/-- The layout makes the instruction from the operand words, one constructor per format of rule R81. -/
inductive Layout.Makes : Layout → List Word → Instr → Prop where
  | w1 (i : Instr) : Makes (.w1 i) [] i
  | w2 (mk : Word → Instr) (a : Word) : Makes (.w2 mk) [a] (mk a)
  | w3 (mk : Word → Word → Instr) (a b : Word) : Makes (.w3 mk) [a, b] (mk a b)
  | w4 (mk : Word → Word → Word → Instr) (a b c : Word) : Makes (.w4 mk) [a, b, c] (mk a b c)

/-- The words of any instruction are an assigned opcode and the operand words from which its layout makes it. -/
theorem encode_layout (i : Instr) :
    ∃ opc shape operands, encode i = opc :: operands ∧ layout opc = some shape ∧ shape.Makes operands i := by
  cases i with
  | halt | ret | noop => exact ⟨_, _, _, rfl, rfl, .w1 _⟩
  | push a | pop a | jmp a | call a | out a | in_ a => exact ⟨_, _, _, rfl, rfl, .w2 _ a⟩
  | set a b | jt a b | jf a b | not a b | rmem a b | wmem a b => exact ⟨_, _, _, rfl, rfl, .w3 _ a b⟩
  | eq a b c | gt a b c | add a b c | mult a b c | mod a b c | and a b c | or a b c =>
    exact ⟨_, _, _, rfl, rfl, .w4 _ a b c⟩

/-- What a layout makes is encoded as the opcode word and the operand words. -/
theorem Layout.Makes.encode_eq {opc : Word} {shape : Layout} {operands : List Word} {i : Instr}
    (hl : layout opc = some shape) (hm : shape.Makes operands i) : encode i = opc :: operands := by
  have he := layout_encode hl
  cases hm with
  | w1 i => exact he
  | w2 mk a => exact he a
  | w3 mk a b => exact he a b
  | w4 mk a b c => exact he a b c

/-- An instruction has at most three operand words (R81). -/
theorem Layout.Makes.length_le {shape : Layout} {operands : List Word} {i : Instr} (hm : shape.Makes operands i) :
    operands.length ≤ 3 := by
  cases hm <;> simp

/-- The decoder answers an instruction if the layout of the opcode word makes it from the next words. -/
theorem decode_of_makes {opc : Word} {shape : Layout} {operands : List Word} {i : Instr}
    (hl : layout opc = some shape) (hm : shape.Makes operands i) (rest : List Word) :
    decode (opc :: operands ++ rest) = .instruction i rest := by
  cases hm <;> simp [decode, hl]

/-- The decoder answers an instruction only if the layout of the opcode word makes it from the next words. -/
theorem makes_of_decode {words rest : List Word} {i : Instr} (h : decode words = .instruction i rest) :
    ∃ opc shape operands, words = opc :: operands ++ rest ∧ layout opc = some shape ∧ shape.Makes operands i := by
  unfold decode at h
  split at h
  case h_1 => cases h
  case h_2 opc tail =>
    split at h
    case h_1 | h_6 => cases h
    case h_2 hl =>
      cases h
      exact ⟨opc, _, [], rfl, hl, .w1 _⟩
    case h_3 hl =>
      cases h
      exact ⟨opc, _, [_], rfl, hl, .w2 _ _⟩
    case h_4 hl =>
      cases h
      exact ⟨opc, _, [_, _], rfl, hl, .w3 _ _ _⟩
    case h_5 hl =>
      cases h
      exact ⟨opc, _, [_, _, _], rfl, hl, .w4 _ _ _ _⟩

/-! ### The statements -/

/-- Settles O9: an instruction's words are those its layout makes it from, and the decoder follows the layout. -/
theorem decodeOfEncodeGivesInstructionBack : Obligations.DecodeOfEncodeGivesInstructionBack := by
  intro i rest
  obtain ⟨opc, shape, operands, henc, hl, hm⟩ := encode_layout i
  rw [henc]
  exact decode_of_makes hl hm rest

/-- Settles O10: the words the decoder has consumed are those of the layout, and so those of the encoding. -/
theorem encodeOfDecodeGivesWordsBack : Obligations.EncodeOfDecodeGivesWordsBack := by
  intro words i rest h
  obtain ⟨opc, shape, operands, rfl, hl, hm⟩ := makes_of_decode h
  rw [hm.encode_eq hl]

/-- Settles O11: above 21 by `decode_unassigned`; an assigned opcode word is never rejected by that name. -/
theorem opcodesAbove21AreUnassigned : Obligations.OpcodesAbove21AreUnassigned := by
  refine fun u rest => ⟨fun h => ?_, fun h => decode_unassigned h rest⟩
  by_contra hu
  obtain ⟨shape, hl⟩ := layout_assigned (Nat.lt_of_not_le hu)
  simp only [decode, hl] at h
  split at h
  case h_1 hnone => cases hnone
  all_goals cases h

/-- Settles O8: the 22 rows by definition, the other opcode words by `layout_unassigned`. -/
theorem opcodeMapOfTheTable : Obligations.OpcodeMapOfTheTable := by
  intro a b c
  simp only [encode, Instr.operands, and_self, true_and]
  exact fun _ => layout_unassigned

/-- Settles O12: each example is decoded by computation. -/
theorem exampleWordsDecode : Obligations.ExampleWordsDecode := by
  unfold Obligations.ExampleWordsDecode
  decide

end Sys2Proof

/-! PROOF. The fetch, and the step of an instruction that lies at pc (30_encoding.md section 4, 20_memory.md rule R55). -/

namespace Sys2Proof.Machine

/-! ### An instruction that lies at pc is the one the fetch gives -/

/-- The operand words lie at the addresses after pc. -/
def OperandsAt (s : State) (operands : List Word) : Prop :=
  ∀ (k : Nat) (h : k < operands.length), memRead s (s.pc + BitVec.ofNat 16 (k + 1)) = .ok operands[k]

theorem OperandsAt.first {s : State} {a : Word} {rest : List Word} (h : OperandsAt s (a :: rest)) :
    memRead s (s.pc + 1#16) = .ok a :=
  h 0 (by simp)

theorem OperandsAt.second {s : State} {a b : Word} {rest : List Word} (h : OperandsAt s (a :: b :: rest)) :
    memRead s (s.pc + 2#16) = .ok b :=
  h 1 (by simp)

theorem OperandsAt.third {s : State} {a b c : Word} {rest : List Word} (h : OperandsAt s (a :: b :: c :: rest)) :
    memRead s (s.pc + 3#16) = .ok c :=
  h 2 (by simp)

/-- The first word of an instruction lies at pc, the others after it. -/
theorem instructionAt_iff_operandsAt {s : State} {i : Instr} {opc : Word} {operands : List Word}
    (henc : encode i = opc :: operands) :
    InstructionAt s i ↔ memRead s s.pc = .ok opc ∧ OperandsAt s operands := by
  simp only [InstructionAt, OperandsAt, henc]
  constructor
  · intro h
    exact ⟨by simpa using h 0 (by simp), fun k hk => h (k + 1) (by simpa using hk)⟩
  · rintro ⟨hopc, hoperands⟩ k hk
    cases k with
    | zero => simpa using hopc
    | succ k => exact hoperands k (by simpa using hk)

/-- The operand fetch makes an instruction exactly from the operand words that lie after pc (R91, phase 3). -/
theorem fetchOperands_eq_ok_iff {s : State} {shape : Layout} {i : Instr} :
    fetchOperands s shape = .ok i ↔ ∃ operands, shape.Makes operands i ∧ OperandsAt s operands := by
  constructor
  · intro h
    cases shape <;> simp only [fetchOperands] at h
    case w1 =>
      cases h
      exact ⟨[], .w1 _, fun k hk => absurd hk (by simp)⟩
    case w2 mk =>
      obtain ⟨a, ha, h⟩ := phase_bind_ok h
      cases h
      exact ⟨[a], .w2 mk a, fun | 0, _ => ha⟩
    case w3 mk =>
      obtain ⟨a, ha, h⟩ := phase_bind_ok h
      obtain ⟨b, hb, h⟩ := phase_bind_ok h
      cases h
      exact ⟨[a, b], .w3 mk a b, fun | 0, _ => ha | 1, _ => hb⟩
    case w4 mk =>
      obtain ⟨a, ha, h⟩ := phase_bind_ok h
      obtain ⟨b, hb, h⟩ := phase_bind_ok h
      obtain ⟨c, hc, h⟩ := phase_bind_ok h
      cases h
      exact ⟨[a, b, c], .w4 mk a b c, fun | 0, _ => ha | 1, _ => hb | 2, _ => hc⟩
  · rintro ⟨operands, hm, hat⟩
    cases hm with
    | w1 i => rfl
    | w2 mk a => simp [fetchOperands, hat.first]
    | w3 mk a b => simp [fetchOperands, hat.first, hat.second]
    | w4 mk a b c => simp [fetchOperands, hat.first, hat.second, hat.third]

/-- The fetch gives an instruction if and only if its words lie at pc. -/
theorem fetch_eq_instruction_iff {s : State} {i : Instr} : fetch s = .instruction i ↔ InstructionAt s i := by
  constructor
  · intro hf
    obtain ⟨opc, shape, hopc, hl, hi⟩ := fetch_instruction hf
    obtain ⟨operands, hm, hat⟩ := fetchOperands_eq_ok_iff.mp hi
    exact (instructionAt_iff_operandsAt (hm.encode_eq hl)).mpr ⟨hopc, hat⟩
  · intro h
    obtain ⟨opc, shape, operands, henc, hl, hm⟩ := encode_layout i
    obtain ⟨hopc, hat⟩ := (instructionAt_iff_operandsAt henc).mp h
    simp [fetch, hopc, hl, fetchOperands_eq_ok_iff.mpr ⟨operands, hm, hat⟩]

/-- A running core runs the instruction whose words lie at pc (R90, R91). -/
theorem step_instructionAt {s : State} {i : Instr} (hr : s.run = .running) (h : InstructionAt s i) :
    step s = exec i s :=
  step_instruction hr (fetch_eq_instruction_iff.mpr h)

/-- Settles O13: the fetch gives the instruction that lies at pc, and the step runs what the fetch gives. -/
theorem stepRunsInstructionAtPc : Obligations.StepRunsInstructionAtPc :=
  fun _ _ => step_instructionAt

/-! ### pc past an instruction -/

/-- An instruction that lies at pc has its first word at an address that exists. -/
theorem InstructionAt.pc_exists {s : State} {i : Instr} (h : InstructionAt s i) : s.pc.toNat ≤ 32775 := by
  obtain ⟨opc, -, operands, henc, -, -⟩ := encode_layout i
  obtain ⟨hopc, -⟩ := (instructionAt_iff_operandsAt henc).mp h
  exact memRead_ok_range hopc

/-- Settles O16: pc is an existing address and an instruction has at most four words, so the sum is far below 65536. -/
theorem pcPastAnInstructionDoesNotWrap : Obligations.PcPastAnInstructionDoesNotWrap := by
  intro s i h
  have hpc := h.pc_exists
  obtain ⟨opc, shape, operands, henc, -, hm⟩ := encode_layout i
  have hlen := hm.length_le
  have hwords : (encode i).length = operands.length + 1 := by simp [henc]
  rw [BitVec.toNat_add, BitVec.toNat_ofNat]
  omega

/-! ### Unassigned opcodes -/

theorem fetch_of_unassigned {s : State} {u : Word} (hu : memRead s s.pc = .ok u) (h : 22 ≤ u.toNat) :
    fetch s = .unassigned u := by
  simp [fetch, hu, layout_unassigned h]

/-- Settles O14: the fetch gives the unassigned word, and its effect is the one the policy names. -/
theorem unassignedOpcodeIsNoopOrFault : Obligations.UnassignedOpcodeIsNoopOrFault := by
  intro s u hr hu h
  rw [step_unassigned hr (fetch_of_unassigned hu h)]
  refine ⟨fun hp => ?_, fun hp => ?_⟩
  · simp [execUnassigned, hp, advance]
  · simp [execUnassigned, hp, raiseFault]

/-! ### A fetch that leaves the address space -/

/-- A word before the end of the registers can be read (R50). -/
theorem memRead_within (s : State) {n : Word} (h : s.pc.toNat + n.toNat ≤ 32775) :
    ∃ v, memRead s (s.pc + n) = .ok v :=
  memRead_exists s (by rw [BitVec.toNat_add]; omega)

/-- The first address that does not exist is 32776 (R50). -/
theorem memRead_pastEnd (s : State) {n : Word} (h : s.pc.toNat + n.toNat = 32776) :
    memRead s (s.pc + n) = .error (.invalidAddress 32776) := by
  have haddr : s.pc + n = 32776 := BitVec.eq_of_toNat_eq (by rw [BitVec.toNat_add, h]; rfl)
  rw [haddr]
  exact memRead_missing s (le_refl 32776)

/-- An operand fetch that would pass 32775 fails at 32776: the words before that address can all be read. -/
theorem fetchOperands_pastEnd {s : State} {shape : Layout} {operands : List Word} {i : Instr}
    (hm : shape.Makes operands i) (hpc : s.pc.toNat ≤ 32775) (h : 32776 < s.pc.toNat + (operands.length + 1)) :
    fetchOperands s shape = .error (.invalidAddress 32776) := by
  cases hm with
  | w1 i => simp only [List.length_nil] at h; omega
  | w2 mk a =>
    simp only [List.length_cons, List.length_nil] at h
    simp [fetchOperands, memRead_pastEnd s (n := 1#16) (by simp; omega)]
  | w3 mk a b =>
    simp only [List.length_cons, List.length_nil] at h
    obtain hlast | hlast : s.pc.toNat = 32775 ∨ s.pc.toNat = 32774 := by omega
    · simp [fetchOperands, memRead_pastEnd s (n := 1#16) (by simp [hlast])]
    · obtain ⟨v, hv⟩ := memRead_within s (n := 1#16) (by simp [hlast])
      simp [fetchOperands, hv, memRead_pastEnd s (n := 2#16) (by simp [hlast])]
  | w4 mk a b c =>
    simp only [List.length_cons, List.length_nil] at h
    obtain hlast | hlast | hlast : s.pc.toNat = 32775 ∨ s.pc.toNat = 32774 ∨ s.pc.toNat = 32773 := by omega
    · simp [fetchOperands, memRead_pastEnd s (n := 1#16) (by simp [hlast])]
    · obtain ⟨v, hv⟩ := memRead_within s (n := 1#16) (by simp [hlast])
      simp [fetchOperands, hv, memRead_pastEnd s (n := 2#16) (by simp [hlast])]
    · obtain ⟨v, hv⟩ := memRead_within s (n := 1#16) (by simp [hlast])
      obtain ⟨w, hw⟩ := memRead_within s (n := 2#16) (by simp [hlast])
      simp [fetchOperands, hv, hw, memRead_pastEnd s (n := 3#16) (by simp [hlast])]

theorem fetch_opcode_missing {s : State} (h : 32776 ≤ s.pc.toNat) :
    fetch s = .fault (.invalidAddress s.pc) none := by
  simp [fetch, memRead_missing s h]

/-- Once the opcode word is read, a fetch that would pass 32775 fails at 32776 and keeps that word (R202). -/
theorem fetch_operand_missing {s : State} {i : Instr} {opc : Word} (hopc : memRead s s.pc = .ok opc)
    (hi : (encode i).head? = some opc) (h : 32776 < s.pc.toNat + (encode i).length) :
    fetch s = .fault (.invalidAddress 32776) (some opc) := by
  obtain ⟨opc', shape, operands, henc, hl, hm⟩ := encode_layout i
  obtain rfl : opc' = opc := by simpa [henc] using hi
  have hfail := fetchOperands_pastEnd hm (memRead_ok_range hopc) (by simpa [henc] using h)
  simp [fetch, hopc, hl, hfail]

/-- Settles O15: the opcode fetch fails at pc, an operand fetch at 32776, and the step is fault entry with that record. -/
theorem fetchFaultsAboveTheRegisters : Obligations.FetchFaultsAboveTheRegisters := by
  refine fun s hr => ⟨fun hpc => ?_, fun i opc hopc hi h => ?_⟩
  · exact step_fetch_fault hr (fetch_opcode_missing hpc)
  · exact step_fetch_fault hr (fetch_operand_missing hopc hi h)

end Sys2Proof.Machine

/-! PROOF. What a step can be, and when there is one (30_encoding.md rule R90, 44_io.md rule R173). -/

namespace Sys2Proof.Machine

/-! ### `in` with and without a queued code -/

theorem execIn_queued {s : State} {code : Word} {rest : List Word} (a : Word) (h : s.inputQueue = code :: rest) :
    execIn a s = conclude 20 s (writeInput a code { s with inputQueue := rest }) := by
  simp only [execIn, h]

theorem execIn_empty {s : State} (a : Word) (h : s.inputQueue = []) :
    execIn a s = .next { s with run := .awaitingInput } := by
  unfold execIn
  rw [h]

/-! ### The host's answer to a waiting `in` -/

/-- The state in which the waiting `in` is completed: the line is off the host's answers, its codes but the first are
queued, and the core runs again (R172, R173). -/
def lineTaken (s : State) (l : Line) (later : List HostAnswer) : State :=
  { s with hostAnswers := later, inputQueue := (inputCodes s.config l).rest, run := .running }

theorem answerInput_none {s : State} (h : s.hostAnswers = []) : answerInput s = .fault .awaitingHost := by
  simp [answerInput, h]

/-- End-of-stream and a read failure are the same to the core (R173). -/
theorem answerInput_failure {s : State} {later : List HostAnswer}
    (h : s.hostAnswers = .endOfStream :: later ∨ s.hostAnswers = .readFailure :: later) :
    answerInput s = .next (raiseFault .ioFailure (some 20) { s with hostAnswers := later }) := by
  rcases h with h | h <;> simp [answerInput, h]

theorem answerInput_line {s : State} {l : Line} {later : List HostAnswer} (h : s.hostAnswers = .line l :: later) :
    answerInput s = conclude 20 (lineTaken s l later) (memRead s (s.pc + 1) >>= fun a =>
      writeInput a (inputCodes s.config l).first (lineTaken s l later)) := by
  simp only [answerInput, h]
  rfl

/-- All that the host's answer can make of a waiting core. -/
inductive AnswerResult (s t : State) : Prop where
  /-- The stream has ended or a read has failed. -/
  | ioFailure (r : HostAnswer) (later : List HostAnswer) (hanswers : s.hostAnswers = r :: later)
      (hr : ∀ l, r ≠ .line l) (ht : t = raiseFault .ioFailure (some 20) { s with hostAnswers := later })
  /-- The line's first code has no address to go to; the line stays taken. -/
  | invalidAddress (l : Line) (later : List HostAnswer) (d : Word) (hanswers : s.hostAnswers = .line l :: later)
      (ht : t = raiseFault (.invalidAddress d) (some 20) (lineTaken s l later))
  /-- The line's first code is written at the dest. -/
  | completed (l : Line) (later : List HostAnswer) (a : Word) (u : State) (hanswers : s.hostAnswers = .line l :: later)
      (hwrite : memWrite (lineTaken s l later) a (inputCodes s.config l).first = .ok u) (ht : t = advance 2 u)

/-- The write that ends an `in` fails for its dest alone. -/
theorem writeInput_error {a code : Word} {s : State} {c : FaultCause} (h : writeInput a code s = .error c) :
    c = .invalidAddress a := by
  cases hw : memWrite s a code with
  | ok t => simp [writeInput, hw] at h
  | error c' =>
    obtain rfl : c' = c := by simpa [writeInput, hw] using h
    exact (memWrite_error hw).1

theorem answerInput_cases {s t : State} (h : answerInput s = .next t) : AnswerResult s t := by
  cases hanswers : s.hostAnswers with
  | nil => cases (answerInput_none hanswers).symm.trans h
  | cons r later =>
    cases r with
    | endOfStream =>
      cases (answerInput_failure (.inl hanswers)).symm.trans h
      exact .ioFailure _ later hanswers (by simp) rfl
    | readFailure =>
      cases (answerInput_failure (.inr hanswers)).symm.trans h
      exact .ioFailure _ later hanswers (by simp) rfl
    | line l =>
      rw [answerInput_line hanswers] at h
      cases hread : memRead s (s.pc + 1) with
      | error c =>
        obtain ⟨rfl, -⟩ := memRead_error hread
        rw [hread] at h
        cases h
        exact .invalidAddress l later _ hanswers rfl
      | ok a =>
        rw [hread, phase_ok] at h
        rcases conclude_cases h with hok | ⟨c, herror, rfl⟩
        · obtain ⟨u, hu, rfl⟩ := writeInput_cases hok
          exact .completed l later a u hanswers hu rfl
        · obtain rfl := writeInput_error herror
          exact .invalidAddress l later a hanswers rfl

/-! ### A step -/

/-- The word at pc is the opcode of the instruction that lies there. -/
theorem InstructionAt.opcode {s : State} {i : Instr} {op : Word} (h : InstructionAt s i)
    (hop : (encode i).head? = some op) : memRead s s.pc = .ok op := by
  obtain ⟨opc, -, operands, henc, -, -⟩ := encode_layout i
  obtain rfl : opc = op := by simpa [henc] using hop
  exact ((instructionAt_iff_operandsAt henc).mp h).1

/-- All that a step can be. -/
inductive StepResult (s t : State) : Prop where
  /-- A running core runs the instruction at pc. -/
  | ran (hs : s.run = .running) (i : Instr) (hat : InstructionAt s i) (h : ExecResult i s t)
  /-- A running core goes past an unassigned opcode word. -/
  | skipped (hs : s.run = .running) (ht : t = advance 1 s)
  /-- A running core comes to fault entry without an instruction: the fetch fails, or the opcode is unassigned. -/
  | failed (hs : s.run = .running) (c : FaultCause) (o : Option Word) (hrecord : RunRecordTrue (raiseFault c o s))
      (ht : t = raiseFault c o s)
  /-- A waiting core gets the host's answer. -/
  | answered (hs : s.run = .awaitingInput) (h : AnswerResult s t)

/-- What a failed fetch records is true: the opcode word at pc, or the missing address pc (R202). -/
theorem fetch_fault_recordTrue {s : State} {c : FaultCause} {o : Option Word} (hf : fetch s = .fault c o) :
    RunRecordTrue (raiseFault c o s) := by
  rcases fetch_fault hf with ⟨hread, rfl⟩ | ⟨opc, -, hread, -, -, rfl⟩
  · obtain ⟨rfl, hmissing⟩ := memRead_error hread
    exact ⟨rfl, rfl, hmissing⟩
  · exact ⟨rfl, hread⟩

theorem step_cases {s t : State} (h : step s = .next t) : StepResult s t := by
  cases hs : s.run with
  | running =>
    cases hf : fetch s with
    | instruction i =>
      exact .ran hs i (fetch_eq_instruction_iff.mp hf) (exec_cases (step_instruction hs hf ▸ h))
    | unassigned u =>
      rw [step_unassigned hs hf, execUnassigned] at h
      split at h <;> cases h
      · exact .skipped hs rfl
      · exact .failed hs (.invalidOpcode u) (some u) ⟨rfl, (fetch_unassigned hf).1⟩ rfl
    | fault c o =>
      cases (step_fetch_fault hs hf).symm.trans h
      exact .failed hs c o (fetch_fault_recordTrue hf) rfl
  | awaitingInput => exact .answered hs (answerInput_cases (step_awaiting hs ▸ h))
  | halted k p => cases (step_of_halted hs).symm.trans h
  | faulted c p o => cases (step_of_faulted hs).symm.trans h

/-! ### When there is a next state -/

/-- Every instruction ends in a next state: its effect, a fault, a halt or a wait. -/
theorem exec_next (i : Instr) (s : State) : ∃ t, exec i s = .next t := by
  cases i with
  | halt | noop => exact ⟨_, rfl⟩
  | ret =>
    rcases pop_cases s with ⟨-, hp⟩ | ⟨v, rest, -, hp⟩ <;> exact ⟨_, by simp only [exec, execRet, hp]; rfl⟩
  | in_ a =>
    cases hq : s.inputQueue with
    | nil => exact ⟨_, execIn_empty a hq⟩
    | cons code rest =>
      obtain ⟨t, ht⟩ := conclude_next 20 s (writeInput a code { s with inputQueue := rest })
      exact ⟨t, (execIn_queued a hq).trans ht⟩
  | _ => exact conclude_next _ s _

theorem step_next_of_running {s : State} (hs : s.run = .running) : ∃ t, step s = .next t := by
  cases hf : fetch s with
  | instruction i => exact step_instruction hs hf ▸ exec_next i s
  | unassigned u =>
    rw [step_unassigned hs hf, execUnassigned]
    split <;> exact ⟨_, rfl⟩
  | fault c o => exact ⟨_, step_fetch_fault hs hf⟩

theorem answerInput_next {s : State} (h : s.hostAnswers ≠ []) : ∃ t, answerInput s = .next t := by
  obtain ⟨r, later, hanswers⟩ := List.exists_cons_of_ne_nil h
  cases r with
  | endOfStream => exact ⟨_, answerInput_failure (.inl hanswers)⟩
  | readFailure => exact ⟨_, answerInput_failure (.inr hanswers)⟩
  | line l => exact answerInput_line hanswers ▸ conclude_next _ _ _

/-- Settles O17: a step is of one of the kinds of `step_cases`; a running core always has one, a waiting one needs an
answer. -/
theorem nextStepExistsUnlessEndedOrStuck : Obligations.NextStepExistsUnlessEndedOrStuck := by
  refine fun s => ⟨fun ⟨t, h⟩ => ?_, fun h => ?_⟩
  · cases step_cases h with
    | ran hs | skipped hs | failed hs => exact .inl hs
    | answered hs ha =>
      refine .inr ⟨hs, ?_⟩
      cases ha <;> simp [*]
  · rcases h with hs | ⟨hs, hanswers⟩
    · exact step_next_of_running hs
    · exact step_awaiting hs ▸ answerInput_next hanswers

/-- Settles O18: the two stops of `step`, one per kind of run state. -/
theorem stopsAreEndedOrAwaitingHost : Obligations.StopsAreEndedOrAwaitingHost := by
  refine fun s => ⟨fun h => ?_, fun hs hanswers => step_awaiting hs ▸ answerInput_none hanswers⟩
  cases hs : s.run with
  | running | awaitingInput => simp [ended, runOutcome, hs] at h
  | halted k p => exact step_of_halted hs
  | faulted c p o => exact step_of_faulted hs

end Sys2Proof.Machine

/-! PROOF. What every step keeps: the invariant, and the frames of faults, halts, output and line requests
(60_exceptions.md sections 4 and 9, 10_state.md sections 7 and 8). -/

namespace Sys2Proof.Machine

/-! ### The end of a wait -/

theorem completed_run {s u : State} {l : Line} {later : List HostAnswer} {a v : Word}
    (hw : memWrite (lineTaken s l later) a v = .ok u) : u.run = .running := by
  obtain ⟨-, -, -, hrun, -, -⟩ := memWrite_sameRest hw
  exact hrun

/-- The host's answer leaves the stack, the output and the parameters (R204, R222). -/
theorem AnswerResult.frame {s t : State} (h : AnswerResult s t) :
    t.stack = s.stack ∧ t.output = s.output ∧ t.config = s.config := by
  cases h with
  | ioFailure _ _ _ _ ht | invalidAddress _ _ _ _ ht =>
    subst ht
    exact ⟨rfl, rfl, rfl⟩
  | completed l later a u _ hw ht =>
    subst ht
    obtain ⟨hstack, -, hout, -, -, hconfig⟩ := memWrite_sameRest hw
    exact ⟨hstack, hout, hconfig⟩

/-! ### The invariant -/

theorem runRecordTrue_of_running {s : State} (hs : s.run = .running) : RunRecordTrue s := by
  simp [RunRecordTrue, hs]

/-- The invariant is kept where memory, stack and parameters are, if the run state tells the truth again. -/
theorem Inv.of_sameStorage {s t : State} (hi : Inv s) (hmem : t.mem = s.mem) (hstack : t.stack = s.stack)
    (hconfig : t.config = s.config) (hrecord : RunRecordTrue t) : Inv t where
  memCanonical := hmem ▸ hi.memCanonical
  stackBounded := by rw [hstack, hconfig]; exact hi.stackBounded
  runRecordTrue := hrecord

/-- The operand of an `in` that lies at pc can be read again at the next address (log 5). -/
theorem InstructionAt.in_dest {s : State} {a : Word} (h : InstructionAt s (.in_ a)) : memRead s (s.pc + 1) = .ok a :=
  ((instructionAt_iff_operandsAt rfl).mp h).2.first

theorem ExecResult.inv {i : Instr} {s t : State} (hi : Inv s) (hs : s.run = .running) (hat : InstructionAt s i)
    (h : ExecResult i s t) : Inv t := by
  cases h with
  | faulted c op hop ht =>
    subst ht
    exact hi.of_sameStorage rfl rfl rfl ⟨rfl, hat.opcode hop⟩
  | halted hhalt ht =>
    subst hhalt ht
    exact hi.of_sameStorage rfl rfl rfl ⟨rfl, hat.opcode rfl⟩
  | returned hret hempty ht =>
    subst hret ht
    exact hi.of_sameStorage rfl rfl rfl ⟨rfl, hat.opcode rfl, hempty⟩
  | waits a hin hq ht =>
    subst hin ht
    exact hi.of_sameStorage rfl rfl rfl ⟨hq, hat.opcode rfl, a, hat.in_dest⟩
  | runsOn hrun hconfig _ hmem hstack _ =>
    refine ⟨hmem hi.memCanonical, fun k hk => ?_, runRecordTrue_of_running (hrun.trans hs)⟩
    rw [hconfig] at hk
    have hbound := hi.stackBounded k hk
    obtain heq | ⟨rest, v, hpop, heq⟩ | ⟨hroom, v, heq⟩ := hstack
    · rwa [heq]
    · rw [hpop, List.length_append] at hbound
      rw [heq]
      omega
    · have hne : k ≠ s.stack.length := fun hfull => hroom (hfull ▸ hk)
      rw [heq, List.length_append, List.length_singleton]
      omega

theorem AnswerResult.inv {s t : State} (hi : Inv s) (hs : s.run = .awaitingInput) (h : AnswerResult s t) : Inv t := by
  have hin := hi.memRead_awaiting hs
  obtain ⟨hstack, -, hconfig⟩ := h.frame
  cases h with
  | ioFailure r later _ _ ht =>
    subst ht
    exact hi.of_sameStorage rfl rfl rfl ⟨rfl, hin⟩
  | invalidAddress l later d _ ht =>
    subst ht
    exact hi.of_sameStorage rfl rfl rfl ⟨rfl, hin⟩
  | completed l later a u _ hw ht =>
    subst ht
    exact ⟨(memWrite_wf hw hi.memCanonical :), by rw [hstack, hconfig]; exact hi.stackBounded,
      runRecordTrue_of_running (completed_run hw :)⟩

/-- Settles O19: each kind of step of `step_cases` keeps the invariant. -/
theorem stepKeepsTheInvariant : Obligations.StepKeepsTheInvariant := by
  intro s t hi h
  cases step_cases h with
  | ran hs i hat hr => exact hr.inv hi hs hat
  | skipped hs ht =>
    subst ht
    exact hi.of_sameStorage rfl rfl rfl (runRecordTrue_of_running hs)
  | failed hs c o hrecord ht =>
    subst ht
    exact hi.of_sameStorage rfl rfl rfl hrecord
  | answered hs ha => exact ha.inv hi hs

/-! ### Faults -/

/-- A fault that ends the wait of an `in` leaves all but the run state, the answer and, for a line, the queue (R204). -/
theorem AnswerResult.faulted_frame {s t : State} {c : FaultCause} {p : Word} {o : Option Word}
    (h : AnswerResult s t) (ht : t.run = .faulted c p o) :
    ∃ r later, s.hostAnswers = r :: later ∧
      t.mem = s.mem ∧ t.regs = s.regs ∧ t.pc = s.pc ∧ t.stack = s.stack ∧ t.output = s.output ∧
      t.hostAnswers = later ∧ t.config = s.config ∧
      (c = .ioFailure → t.inputQueue = s.inputQueue) ∧
      (∀ l, r = .line l → t.inputQueue = (inputCodes s.config l).rest) := by
  cases h with
  | ioFailure r later hanswers hr h' =>
    subst h'
    exact ⟨r, later, hanswers, rfl, rfl, rfl, rfl, rfl, rfl, rfl, fun _ => rfl, fun l hl => absurd hl (hr l)⟩
  | invalidAddress l later d hanswers h' =>
    subst h'
    refine ⟨_, later, hanswers, rfl, rfl, rfl, rfl, rfl, rfl, rfl, fun hc => ?_, fun l' hl => ?_⟩
    · subst hc
      cases ht
    · cases hl
      rfl
  | completed l later a u _ hw h' => simp [h', completed_run hw] at ht

/-- Settles O23: a running fault is fault entry alone, by `exec_faulted` and `step_running_faulted`; the other is that of a
wait. -/
theorem faultCommitsNothing : Obligations.FaultCommitsNothing := by
  refine ⟨fun i s t c p o hs h ht => exec_faulted hs h ht, fun s t c p o h ht => ⟨fun hs => ?_, fun hs => ?_⟩⟩
  · exact (step_running_faulted hs h ht).1
  · exact (answerInput_cases (step_awaiting hs ▸ h)).faulted_frame ht

/-! ### Graceful halts -/

/-- An instruction halts in place, and is `halt`, or `ret` on an empty stack (R206). -/
theorem ExecResult.halted_inv {i : Instr} {s t : State} {k : HaltKind} {p : Word} (h : ExecResult i s t)
    (hs : s.run = .running) (ht : t.run = .halted k p) :
    t = haltRun k s ∧ (k = .haltOpcode ∧ i = .halt ∨ k = .returnEmptyStack ∧ i = .ret ∧ s.stack = []) := by
  cases h with
  | faulted c op _ h' => simp [h'] at ht
  | halted hi h' =>
    subst h'
    cases ht
    exact ⟨rfl, .inl ⟨rfl, hi⟩⟩
  | returned hi hempty h' =>
    subst h'
    cases ht
    exact ⟨rfl, .inr ⟨rfl, hi, hempty⟩⟩
  | waits a _ _ h' => simp [h'] at ht
  | runsOn hrun => simp [hrun, hs] at ht

/-- Settles O24: of the kinds of step only an instruction of a running core halts. -/
theorem gracefulHaltChangesRunStateAlone : Obligations.GracefulHaltChangesRunStateAlone := by
  intro s t k p h ht
  cases step_cases h with
  | ran hs i hat hr =>
    obtain ⟨rfl, ⟨rfl, rfl⟩ | ⟨rfl, rfl, hempty⟩⟩ := hr.halted_inv hs ht
    · exact ⟨hs, rfl, rfl, fun _ => hat.opcode rfl, nofun⟩
    · exact ⟨hs, rfl, rfl, nofun, fun _ => ⟨hat.opcode rfl, hempty⟩⟩
  | skipped hs h' => simp [h', hs] at ht
  | failed hs c o _ h' => simp [h'] at ht
  | answered hs ha =>
    cases ha with
    | ioFailure r later _ _ h' => simp [h'] at ht
    | invalidAddress l later d _ h' => simp [h'] at ht
    | completed l later a u _ hw h' => simp [h', completed_run hw] at ht

/-! ### Output and parameters -/

/-- A step leaves the output, or is that of an `out` and appends one byte while the run goes on (R34, R171). -/
theorem step_output {s t : State} (h : step s = .next t) :
    t.output = s.output ∨
    (s.run = .running ∧ t.run = .running ∧ memRead s s.pc = .ok 19 ∧ ∃ b, t.output = s.output ++ [b]) := by
  cases step_cases h with
  | ran hs i hat hr =>
    cases hr with
    | faulted _ _ _ ht | halted _ ht | returned _ _ ht | waits _ _ _ ht => exact .inl (by simp [ht])
    | runsOn hrun _ _ _ _ hout =>
      obtain hsame | ⟨⟨a, rfl⟩, hgrown⟩ := hout
      · exact .inl hsame
      · exact .inr ⟨hs, hrun.trans hs, hat.opcode rfl, hgrown⟩
  | skipped _ ht | failed _ _ _ _ ht => exact .inl (by simp [ht])
  | answered _ ha =>
    obtain ⟨-, hout, -⟩ := ha.frame
    exact .inl hout

/-- No step changes a parameter (log 2). -/
theorem step_config {s t : State} (h : step s = .next t) : t.config = s.config := by
  cases step_cases h with
  | ran hs i hat hr =>
    cases hr with
    | faulted _ _ _ ht | halted _ ht | returned _ _ ht | waits _ _ _ ht => simp [ht]
    | runsOn _ hconfig => exact hconfig
  | skipped _ ht | failed _ _ _ _ ht => simp [ht]
  | answered _ ha =>
    obtain ⟨-, -, hconfig⟩ := ha.frame
    exact hconfig

/-- Settles O28: `step_output` without the run state after it, and `step_config`. -/
theorem outputGrowsOnlyByOut : Obligations.OutputGrowsOnlyByOut := by
  refine fun s t h => ⟨?_, step_config h⟩
  obtain hsame | ⟨hs, -, hout, hgrown⟩ := step_output h
  · exact .inl hsame
  · exact .inr ⟨hs, hout, hgrown⟩

/-! ### Events -/

/-- Where nothing is emitted there is at most one event: the wait that begins, or the end of the run. -/
theorem transitionEvents_length_of_sameOutput {s t : State} (h : t.output = s.output) :
    (transitionEvents s t).length ≤ 1 := by
  rw [transitionEvents, h, List.drop_length]
  by_cases hwait : t.run = .awaitingInput ∧ s.run ≠ .awaitingInput
  · have hgoing : runOutcome t = none := by simp [runOutcome, hwait.1]
    rw [if_pos hwait, hgoing]
    split <;> simp_all
  · rw [if_neg hwait]
    split <;> simp

/-- An emitted byte is the only event of a step that lets the run go on. -/
theorem transitionEvents_of_emitted {s t : State} {b : Byte} (hs : s.run = .running) (ht : t.run = .running)
    (h : t.output = s.output ++ [b]) : transitionEvents s t = [.outByte b] := by
  simp [transitionEvents, runOutcome, hs, ht, h]

/-- A line request is the beginning of a wait (R222). -/
theorem awaiting_of_lineRequest {s t : State} (h : HostEvent.lineRequest ∈ transitionEvents s t) :
    t.run = .awaitingInput ∧ s.run ≠ .awaitingInput := by
  by_contra hwait
  rw [transitionEvents, if_neg hwait, List.append_nil, List.mem_append, List.mem_map] at h
  rcases h with ⟨b, -, hb⟩ | h
  · cases hb
  · split at h <;> simp at h

/-- A wait begins only where a running core meets an `in` with an empty queue, and changes the run state alone (R173). -/
theorem step_awaiting_inv {s t : State} (h : step s = .next t) (ht : t.run = .awaitingInput)
    (hs : s.run ≠ .awaitingInput) :
    s.run = .running ∧ s.inputQueue = [] ∧ memRead s s.pc = .ok 20 ∧ t = { s with run := .awaitingInput } := by
  cases step_cases h with
  | ran hr i hat hresult =>
    cases hresult with
    | faulted _ _ _ h' | halted _ h' | returned _ _ h' => simp [h'] at ht
    | waits a hi hq h' =>
      subst hi
      exact ⟨hr, hq, hat.opcode rfl, h'⟩
    | runsOn hrun => simp [hrun, hr] at ht
  | skipped hr h' => simp [h', hr] at ht
  | failed _ _ _ _ h' => simp [h'] at ht
  | answered hr => exact absurd hr hs

/-- Settles O29: a request is the beginning of a wait; a step emits a byte, or has no event but such a beginning or the end
of the run. -/
theorem lineRequestOnlyWhenQueueEmpty : Obligations.LineRequestOnlyWhenQueueEmpty := by
  refine fun s t h => ⟨fun hreq => ?_, ?_⟩
  · obtain ⟨ht, hs⟩ := awaiting_of_lineRequest hreq
    exact step_awaiting_inv h ht hs
  · obtain hsame | ⟨hs, ht, -, b, hb⟩ := step_output h
    · exact transitionEvents_length_of_sameOutput hsame
    · simp [transitionEvents_of_emitted hs ht hb]

end Sys2Proof.Machine

/-! PROOF. What instructions do not look at: the stack, the input queue, the output (10_state.md sections 7 and 8). -/

namespace Sys2Proof.Machine

/-! ### A change of the state that the shared operations do not see -/

/-- `f` leaves memory, registers and pc, and it makes no difference whether it comes before or after an operation that
changes them, the run state, or the end of the output. -/
structure Unseen (f : State → State) : Prop where
  mem : ∀ s, (f s).mem = s.mem
  regs : ∀ s, (f s).regs = s.regs
  pc : ∀ s, (f s).pc = s.pc
  setMem : ∀ s m, { f s with mem := m } = f { s with mem := m }
  setRegs : ∀ s x, { f s with regs := x } = f { s with regs := x }
  advance : ∀ n s, advance n (f s) = f (advance n s)
  jumpTo : ∀ v s, jumpTo v (f s) = f (jumpTo v s)
  emit : ∀ b s, emit b (f s) = f (emit b s)
  haltRun : ∀ k s, haltRun k (f s) = f (haltRun k s)
  raiseFault : ∀ c o s, raiseFault c o (f s) = f (raiseFault c o s)

/-- It makes no difference whether `f` comes before or after a push or a pop. -/
structure UnseenByStack (f : State → State) : Prop where
  push : ∀ v s, push v (f s) = (push v s).map f
  pop : ∀ s, pop (f s) = (pop s).map (fun r => (r.1, f r.2))

/-- `f` leaves the input queue, and it makes no difference whether it comes before or after what `in` does to the queue
and to the run state. -/
structure UnseenByQueue (f : State → State) : Prop where
  inputQueue : ∀ s, (f s).inputQueue = s.inputQueue
  setQueue : ∀ s q, { f s with inputQueue := q } = f { s with inputQueue := q }
  wait : ∀ s, { f s with run := .awaitingInput } = f { s with run := .awaitingInput }

/-! ### A change before or after the phases of an instruction -/

/-- A change after two phases is a change after the second. -/
theorem phase_map {α : Type} (f : State → State) (x : Except FaultCause α) (g : α → Except FaultCause State) :
    (x >>= g).map f = x >>= fun a => (g a).map f := by
  cases x <;> rfl

/-- A phase that begins after a change begins in the changed state. -/
theorem phase_of_map (f : State → State) (x : Except FaultCause State) (g : State → Except FaultCause State) :
    x.map f >>= g = x >>= fun t => g (f t) := by
  cases x <;> rfl

theorem phase_end_map (f : State → State) (t : State) :
    (Except.ok t : Except FaultCause State).map f = .ok (f t) := rfl

/-- The instructions that reach the stack (10_state.md section 7). -/
def UsesStack (i : Instr) : Prop := (∃ a, i = .push a) ∨ (∃ a, i = .pop a) ∨ (∃ a, i = .call a) ∨ i = .ret

namespace Unseen

section

variable {f : State → State} (hf : Unseen f)
include hf

theorem memRead (s : State) (d : Word) : memRead (f s) d = memRead s d := memRead_congr (hf.mem s) (hf.regs s) d

theorem resolve (s : State) (w : Word) : resolve (f s) w = resolve s w := by
  simp only [Machine.resolve, hf.regs]

theorem memWrite (s : State) (a v : Word) : memWrite (f s) a v = (memWrite s a v).map f := by
  rcases locate_cases a with ⟨-, hl⟩ | ⟨i, -, hl⟩ | ⟨-, hl⟩
  · simp only [Machine.memWrite, hl, hf.mem, hf.setMem, Except.map]
  · simp only [Machine.memWrite, hl, hf.regs, hf.setRegs, Except.map]
  · simp only [Machine.memWrite, hl, Except.map]

/-- An instruction whose phases do not see the change ends in the changed state. -/
theorem conclude (op : Word) (s : State) (r : Except FaultCause State) :
    conclude op (f s) (r.map f) = onNext f (conclude op s r) := by
  cases r with
  | ok t => rfl
  | error c => exact congrArg Host.Outcome.next (hf.raiseFault c (some op) s)

theorem writeInput (a code : Word) (s : State) : writeInput a code (f s) = (writeInput a code s).map f := by
  simp only [Machine.writeInput, hf.memWrite, phase_of_map, phase_map, phase_end_map, hf.advance]

theorem fetch (s : State) : fetch (f s) = fetch s := by
  have hoperands : ∀ shape, fetchOperands (f s) shape = fetchOperands s shape := by
    intro shape
    cases shape <;> simp only [fetchOperands, hf.memRead, hf.pc]
  simp only [Machine.fetch, hf.memRead, hf.pc, hoperands]

theorem execIn (hq : UnseenByQueue f) (a : Word) (s : State) : execIn a (f s) = onNext f (execIn a s) := by
  cases hqueue : s.inputQueue with
  | nil =>
    rw [execIn_empty a hqueue, execIn_empty a ((hq.inputQueue s).trans hqueue), hq.wait]
    rfl
  | cons code rest =>
    rw [execIn_queued a hqueue, execIn_queued a ((hq.inputQueue s).trans hqueue), hq.setQueue, hf.writeInput,
      hf.conclude]

theorem execPop (hs : UnseenByStack f) (a : Word) (s : State) : execPop a (f s) = onNext f (execPop a s) := by
  rw [Machine.execPop, Machine.execPop, ← hf.conclude, hs.pop]
  cases pop s with
  | none => rfl
  | some r =>
    simp only [Option.map, hf.memWrite, phase_of_map, phase_map, phase_end_map, hf.advance]

theorem execRet (hs : UnseenByStack f) (s : State) : execRet (f s) = onNext f (execRet s) := by
  rw [Machine.execRet, Machine.execRet, hs.pop]
  cases pop s with
  | none => exact congrArg Host.Outcome.next (hf.haltRun _ s)
  | some r => exact congrArg Host.Outcome.next (hf.jumpTo _ r.2)

/-- An instruction sees nothing that its phases do not see. -/
theorem exec {i : Instr} (hs : UsesStack i → UnseenByStack f) (hq : (∃ a, i = .in_ a) → UnseenByQueue f)
    (s : State) : exec i (f s) = onNext f (exec i s) := by
  cases i with simp only [Machine.exec]
  | halt => exact congrArg Host.Outcome.next (hf.haltRun _ s)
  | noop => exact congrArg Host.Outcome.next (hf.advance _ s)
  | in_ a => exact hf.execIn (hq ⟨a, rfl⟩) a s
  | ret => exact hf.execRet (hs (.inr (.inr (.inr rfl)))) s
  | pop a => exact hf.execPop (hs (.inr (.inl ⟨a, rfl⟩))) a s
  | push a =>
    have hpush := (hs (.inl ⟨a, rfl⟩)).push
    simp only [execPush, hf.resolve, hpush, ← hf.conclude, phase_of_map, phase_map, phase_end_map, hf.advance]
  | call a =>
    have hpush := (hs (.inr (.inr (.inl ⟨a, rfl⟩)))).push
    simp only [execCall, hf.resolve, hf.pc, hpush, ← hf.conclude, phase_of_map, phase_map, phase_end_map, hf.jumpTo]
  | jmp a => simp only [execJmp, hf.resolve, ← hf.conclude, phase_map, phase_end_map, hf.jumpTo]
  | out a => simp only [execOut, hf.resolve, ← hf.conclude, phase_map, phase_end_map, hf.emit, hf.advance]
  | jt a b | jf a b =>
    simp only [execJt, execJf, hf.resolve, ← hf.conclude, phase_map, phase_end_map, hf.jumpTo, hf.advance, apply_ite f]
  | _ =>
    simp only [execSet, execRmem, execWmem, execEq, execGt, execAdd, execMult, execMod, execAnd, execOr, execNot,
      hf.resolve, hf.memRead, hf.memWrite, ← hf.conclude, phase_of_map, phase_map, phase_end_map, hf.advance]

end

end Unseen

/-! ### The stack and the queue -/

theorem unseen_setStack (other : List Word) : Unseen (fun s => { s with stack := other }) := by
  constructor <;> intros <;> rfl

theorem unseenByQueue_setStack (other : List Word) : UnseenByQueue (fun s => { s with stack := other }) := by
  constructor <;> intros <;> rfl

/-- Settles O25: another stack is unseen by all phases but a push and a pop. -/
theorem onlyStackInstructionsReachTheStack : Obligations.OnlyStackInstructionsReachTheStack := by
  intro i s other hpush hpop hcall hret
  have hno : ¬ UsesStack i := by
    rintro (⟨a, h⟩ | ⟨a, h⟩ | ⟨a, h⟩ | h)
    exacts [hpush a h, hpop a h, hcall a h, hret h]
  exact (unseen_setStack other).exec (fun h => absurd h hno) (fun _ => unseenByQueue_setStack other) s

theorem unseen_setInput (queue : List Word) (answers : List HostAnswer) :
    Unseen (fun s => { s with inputQueue := queue, hostAnswers := answers }) := by
  constructor <;> intros <;> rfl

/-- A change of other fields than the stack and the capacity is unseen by a push and a pop. -/
theorem unseenByStack_of {f : State → State} (hstack : ∀ s, (f s).stack = s.stack)
    (hconfig : ∀ s, (f s).config = s.config) (hset : ∀ s st, { f s with stack := st } = f { s with stack := st }) : UnseenByStack f where
  push v s := by
    rcases push_cases v s with ⟨hfull, hp⟩ | ⟨hroom, hp⟩
    · rw [hp, push_full v (by rwa [hstack, hconfig])]
      rfl
    · rw [hp, push_append v (by rwa [hstack, hconfig]), hstack]
      exact congrArg Except.ok (hset s _)
  pop s := by
    rcases pop_cases s with ⟨hempty, hp⟩ | ⟨v, rest, htop, hp⟩
    · rw [hp, pop_empty (by rwa [hstack])]
      rfl
    · rw [hp, pop_append (by rwa [hstack])]
      exact congrArg (fun t => some (v, t)) (hset s rest)

/-- Settles O26: another queue and other answers are unseen by all phases but those of `in`. -/
theorem onlyInReachesTheInputQueue : Obligations.OnlyInReachesTheInputQueue := by
  intro i s queue answers hin
  exact (unseen_setInput queue answers).exec
    (fun _ => unseenByStack_of (fun _ => rfl) (fun _ => rfl) (fun _ _ => rfl)) (fun ⟨a, ha⟩ => absurd ha (hin a)) s

/-! ### The output -/

/-- The state with earlier bytes before its output. -/
def emittedBefore (earlier : List Byte) (s : State) : State := { s with output := earlier ++ s.output }

theorem unseen_emittedBefore (earlier : List Byte) : Unseen (emittedBefore earlier) where
  emit b s := by simp only [emit, emittedBefore, List.append_assoc]
  mem _ := rfl
  regs _ := rfl
  pc _ := rfl
  setMem _ _ := rfl
  setRegs _ _ := rfl
  advance _ _ := rfl
  jumpTo _ _ := rfl
  haltRun _ _ := rfl
  raiseFault _ _ _ := rfl

theorem exec_emittedBefore (earlier : List Byte) (i : Instr) (s : State) :
    exec i (emittedBefore earlier s) = onNext (emittedBefore earlier) (exec i s) :=
  (unseen_emittedBefore earlier).exec (fun _ => unseenByStack_of (fun _ => rfl) (fun _ => rfl) (fun _ _ => rfl))
    (fun _ => ⟨fun _ => rfl, fun _ _ => rfl, fun _ => rfl⟩) s

theorem answerInput_emittedBefore (earlier : List Byte) (s : State) :
    answerInput (emittedBefore earlier s) = onNext (emittedBefore earlier) (answerInput s) := by
  have hf := unseen_emittedBefore earlier
  cases hanswers : s.hostAnswers with
  | nil =>
    rw [answerInput_none hanswers, answerInput_none (s := emittedBefore earlier s) hanswers]
    rfl
  | cons r later =>
    cases r with
    | endOfStream =>
      rw [answerInput_failure (.inl hanswers), answerInput_failure (s := emittedBefore earlier s) (.inl hanswers)]
      rfl
    | readFailure =>
      rw [answerInput_failure (.inr hanswers), answerInput_failure (s := emittedBefore earlier s) (.inr hanswers)]
      rfl
    | line l =>
      have hline : lineTaken (emittedBefore earlier s) l later = emittedBefore earlier (lineTaken s l later) := rfl
      rw [answerInput_line hanswers, answerInput_line (s := emittedBefore earlier s) hanswers, hline, ← hf.conclude]
      simp only [hf.memRead, hf.pc, hf.writeInput, phase_map]
      rfl

/-- Settles O27: each kind of step goes on after the earlier bytes as without them. -/
theorem outputIsNeverReadBack : Obligations.OutputIsNeverReadBack := by
  intro s earlier
  have hf := unseen_emittedBefore earlier
  show step (emittedBefore earlier s) = onNext (emittedBefore earlier) (step s)
  cases hs : s.run with
  | running =>
    have hs' : (emittedBefore earlier s).run = .running := hs
    cases hfetch : fetch s with
    | instruction i =>
      rw [step_instruction hs hfetch, step_instruction hs' (hf.fetch s ▸ hfetch), exec_emittedBefore]
    | unassigned u =>
      rw [step_unassigned hs hfetch, step_unassigned hs' (hf.fetch s ▸ hfetch), execUnassigned, execUnassigned]
      cases hp : s.config.unknownOpcodePolicy <;> simp [emittedBefore, hp, onNext, advance, raiseFault]
    | fault c o =>
      rw [step_fetch_fault hs hfetch, step_fetch_fault hs' (hf.fetch s ▸ hfetch)]
      rfl
  | awaitingInput =>
    rw [step_awaiting hs, step_awaiting (s := emittedBefore earlier s) hs, answerInput_emittedBefore]
  | halted k p =>
    rw [step_of_halted hs, step_of_halted (s := emittedBefore earlier s) hs]
    rfl
  | faulted c p o =>
    rw [step_of_faulted hs, step_of_faulted (s := emittedBefore earlier s) hs]
    rfl

end Sys2Proof.Machine

/-! PROOF. `halt`, `ret`, `jt`, `jf` and the return from a call (40_control.md section 2). -/

namespace Sys2Proof.Machine

/-! ### halt -/

/-- Settles O34: `halt` is the graceful halt by definition. -/
theorem haltEndsTheRunInPlace : Obligations.HaltEndsTheRunInPlace :=
  ⟨rfl, fun _ => rfl⟩

/-! ### ret -/

/-- The popped word is the target as it stands (R106). -/
theorem exec_ret_append {s : State} {rest : List Word} {v : Word} (h : s.stack = rest ++ [v]) :
    exec .ret s = .next (jumpTo v { s with stack := rest }) := by
  simp [exec, execRet, pop_append h]

/-- Settles O40: one lemma of `ret` per outcome of the pop. -/
theorem retPopsOrHalts : Obligations.RetPopsOrHalts :=
  ⟨rfl, fun _ _ _ => exec_ret_append, fun _ => exec_ret_empty⟩

/-- Settles O33: `call` leaves pc + 2 on top of the stack, which is what `ret` takes off it. -/
theorem retAfterCallResumes : Obligations.RetAfterCallResumes :=
  fun _ _ _ ha hs => ⟨_, exec_call_resolved ha hs, rfl, exec_ret_append rfl⟩

/-! ### jt and jf: both operands are resolved before the condition is looked at (D8) -/

/-- A condition word is true unless its number is 0 (R103, R104). -/
theorem ite_isNonZero {α : Type} (v : Word) (x y : α) :
    (if isNonZero v then x else y) = if v.toNat = 0 then y else x := by
  have hzero : isNonZero v = true ↔ ¬ v.toNat = 0 := by simp [isNonZero, BitVec.toNat_eq]
  rw [if_congr hzero rfl rfl, ite_not]

theorem exec_jt_resolved {s : State} {a b va vb : Word} (ha : resolve s a = .ok va) (hb : resolve s b = .ok vb) :
    exec (.jt a b) s = .next { s with pc := if va.toNat = 0 then s.pc + 3 else vb } := by
  rw [exec, execJt, ha, phase_ok, hb, phase_ok, conclude_ok, ite_isNonZero]
  split <;> rfl

theorem exec_jf_resolved {s : State} {a b va vb : Word} (ha : resolve s a = .ok va) (hb : resolve s b = .ok vb) :
    exec (.jf a b) s = .next { s with pc := if va.toNat = 0 then vb else s.pc + 3 } := by
  rw [exec, execJf, ha, phase_ok, hb, phase_ok, conclude_ok, ite_isNonZero]
  split <;> rfl

/-- An instruction that resolves `a`, then `b`, has the fault of the first that is above 32775, whatever it does with
their values (R203). -/
theorem raisesFault_of_resolves {i : Instr} {op a b : Word} {s : State} {k : Word → Word → Except FaultCause State}
    (hexec : exec i s = conclude op s (resolve s a >>= fun va => resolve s b >>= fun vb => k va vb)) :
    (32776 ≤ a.toNat → RaisesFault i (.invalidOperand a) op s) ∧
    (a.toNat ≤ 32775 → 32776 ≤ b.toNat → RaisesFault i (.invalidOperand b) op s) := by
  refine ⟨fun ha => ?_, fun ha hb => ?_⟩
  · exact ⟨raiseFault (.invalidOperand a) (some op) s, by simp [hexec, resolve_missing s ha], raiseFault_run ..⟩
  · obtain ⟨va, hva⟩ := resolve_exists s ha
    exact ⟨raiseFault (.invalidOperand b) (some op) s, by simp [hexec, hva, resolve_missing s hb], raiseFault_run ..⟩

/-- Settles O37: `exec_jt_resolved`, and the faults of the two operands. -/
theorem jtJumpsOnNonZero : Obligations.JtJumpsOnNonZero :=
  fun a b s => ⟨rfl, fun _ _ => exec_jt_resolved, raisesFault_of_resolves (i := .jt a b) (s := s) rfl⟩

/-- Settles O38: `exec_jf_resolved`, and the faults of the two operands. -/
theorem jfJumpsOnZero : Obligations.JfJumpsOnZero :=
  fun a b s => ⟨rfl, fun _ _ => exec_jf_resolved, raisesFault_of_resolves (i := .jf a b) (s := s) rfl⟩

end Sys2Proof.Machine

/-! PROOF. `push`, `rmem` and `wmem` (41_data_movement.md section 1). -/

namespace Sys2Proof.Machine

/-! ### push -/

/-- Settles O32: the two outcomes of `push`, which exclude each other. -/
theorem pushAppendsUnlessFull : Obligations.PushAppendsUnlessFull :=
  fun _ v => ⟨push_append v, push_full v⟩

theorem exec_push_resolved {s : State} {a va : Word} (ha : resolve s a = .ok va)
    (hs : s.config.stackCapacity ≠ some s.stack.length) :
    exec (.push a) s = .next (advance 2 { s with stack := s.stack ++ [va] }) := by
  simp [exec, execPush, ha, push_append va hs]

theorem exec_push_invalid (s : State) {a : Word} (ha : 32776 ≤ a.toNat) :
    exec (.push a) s = .next (raiseFault (.invalidOperand a) (some 2) s) := by
  simp [exec, execPush, resolve_missing s ha]

theorem exec_push_full {s : State} {a va : Word} (ha : resolve s a = .ok va)
    (hs : s.config.stackCapacity = some s.stack.length) :
    exec (.push a) s = .next (raiseFault .stackOverflow (some 2) s) := by
  simp [exec, execPush, ha, push_full va hs]

/-- Settles O42: one lemma of `push` per outcome of its two phases. -/
theorem pushPushesResolvedOperand : Obligations.PushPushesResolvedOperand := by
  refine fun a s => ⟨rfl, fun va => exec_push_resolved, fun ha => ?_, fun ha hs => ?_⟩
  · exact ⟨_, exec_push_invalid s ha, raiseFault_run ..⟩
  · obtain ⟨va, hva⟩ := resolve_exists s ha
    exact ⟨_, exec_push_full hva hs, raiseFault_run ..⟩

/-! ### The end of an instruction that writes one word -/

/-- A write to an existing address, and the advance: what it changes and what it leaves (R53). -/
theorem memWrite_advance_exists (n : Word) (s : State) {a : Word} (v : Word) (ha : a.toNat ≤ 32775) :
    ∃ t, memWrite s a v = .ok t ∧ OnlyWrote a v s (advance n t) ∧ SameRest s (advance n t) ∧
      (advance n t).pc = s.pc + n := by
  obtain ⟨t, ht⟩ := memWrite_exists s v ha
  exact ⟨t, ht, memWrite_advance_onlyWrote n ht, memWrite_advance_sameRest n ht, memWrite_advance_pc n ht⟩

/-! ### rmem -/

/-- Settles O44: the outcomes of the three phases of `rmem` in their order. -/
theorem rmemCopiesAddressedWord : Obligations.RmemCopiesAddressedWord := by
  refine fun a b s => ⟨rfl, fun vb v hb hread ha => ?_, fun hb => ?_, fun vb hb hvb => ?_, fun vb hb hvb ha => ?_⟩
  · obtain ⟨t, ht, hwrote, hrest, hpc⟩ := memWrite_advance_exists 3 s v ha
    exact ⟨advance 3 t, by simp [exec, execRmem, hb, hread, ht], hwrote, hrest, hpc⟩
  · exact ⟨raiseFault (.invalidOperand b) (some 15) s, by simp [exec, execRmem, resolve_missing s hb],
      raiseFault_run ..⟩
  · exact ⟨raiseFault (.invalidAddress vb) (some 15) s, by simp [exec, execRmem, hb, memRead_missing s hvb],
      raiseFault_run ..⟩
  · obtain ⟨v, hread⟩ := memRead_exists s hvb
    exact ⟨raiseFault (.invalidAddress a) (some 15) s, by simp [exec, execRmem, hb, hread, memWrite_missing s v ha],
      raiseFault_run ..⟩

/-! ### wmem -/

/-- The store goes through the unified write at the resolved first operand (R124). -/
theorem exec_wmem_written {s t : State} {a b va vb : Word} (ha : resolve s a = .ok va) (hb : resolve s b = .ok vb)
    (ht : memWrite s va vb = .ok t) : exec (.wmem a b) s = .next (advance 3 t) := by
  simp [exec, execWmem, ha, hb, ht]

/-- Settles O45: the outcomes of the three phases of `wmem` in their order. -/
theorem wmemStoresAtResolvedAddress : Obligations.WmemStoresAtResolvedAddress := by
  intro a b s
  obtain ⟨hfaultA, hfaultB⟩ := raisesFault_of_resolves (i := .wmem a b) (s := s) rfl
  refine ⟨rfl, fun va vb ha hb hva => ?_, hfaultA, hfaultB, fun va ha hb hva => ?_⟩
  · obtain ⟨t, ht, hwrote, hrest, hpc⟩ := memWrite_advance_exists 3 s vb hva
    exact ⟨advance 3 t, exec_wmem_written ha hb ht, hwrote, hrest, hpc⟩
  · obtain ⟨vb, hvb⟩ := resolve_exists s hb
    exact ⟨raiseFault (.invalidAddress va) (some 16) s,
      by simp [exec, execWmem, ha, hvb, memWrite_missing s vb hva], raiseFault_run ..⟩

/-- Settles O30: the step is that `wmem`, and what it has stored is what the next fetch reads at its pc. -/
theorem storeIntoNextInstructionIsFetched : Obligations.StoreIntoNextInstructionIsFetched := by
  intro s a b v hs hat hpc ha hb
  have hnext : (s.pc + 3).toNat ≤ 32775 := by bv_omega
  obtain ⟨-, hstore, -⟩ := wmemStoresAtResolvedAddress a b s
  obtain ⟨t, ht, ⟨hwritten, -⟩, ⟨-, -, -, hrun, -, -⟩, hpc'⟩ := hstore _ v ha hb hnext
  exact ⟨t, (step_instructionAt hs hat).trans ht, hrun.trans hs, hpc', hpc' ▸ hwritten⟩

end Sys2Proof.Machine

/-! PROOF. `eq`, `gt`, `mod`, `and`, `or` and `not` (42_compare.md, 43_arith_logic.md section 2). -/

namespace Sys2Proof.Machine

/-! ### eq and gt -/

theorem truthWord_toNat (p : Prop) [Decidable p] : (truthWord (decide p)).toNat = if p then 1 else 0 := by
  by_cases hp : p <;> simp [truthWord, hp]

theorem equalWord_toNat (vb vc : Word) : (equalWord vb vc).toNat = if vb.toNat = vc.toNat then 1 else 0 := by
  simp only [equalWord, truthWord_toNat, BitVec.toNat_eq]

theorem greaterWord_toNat (vb vc : Word) : (greaterWord vb vc).toNat = if vc.toNat < vb.toNat then 1 else 0 :=
  truthWord_toNat _

/-- Settles O46: `eq` is the template's instruction whose result is `equalWord`. -/
theorem eqWritesEqualityOfWords : Obligations.EqWritesEqualityOfWords :=
  writesResultOfTwo_of_exec equalWord (fun _ _ _ => rfl) (fun _ _ _ _ => rfl) equalWord_toNat

/-- Settles O47: `gt` is the template's instruction whose result is `greaterWord`. -/
theorem gtWritesUnsignedComparison : Obligations.GtWritesUnsignedComparison :=
  writesResultOfTwo_of_exec greaterWord (fun _ _ _ => rfl) (fun _ _ _ _ => rfl) greaterWord_toNat

/-! ### and and or -/

/-- Settles O51: `and` is the template's instruction whose result is the 16-bit AND. -/
theorem andWritesBitwiseAnd : Obligations.AndWritesBitwiseAnd :=
  writesResultOfTwo_of_exec (fun vb vc => vb &&& vc) (fun _ _ _ => rfl) (fun _ _ _ _ => rfl)
    (fun _ _ _ _ => BitVec.getLsbD_and)

/-- Settles O52: `or` is the template's instruction whose result is the 16-bit OR. -/
theorem orWritesBitwiseOr : Obligations.OrWritesBitwiseOr :=
  writesResultOfTwo_of_exec (fun vb vc => vb ||| vc) (fun _ _ _ => rfl) (fun _ _ _ _ => rfl)
    (fun _ _ _ _ => BitVec.getLsbD_or)

/-! ### not -/

/-- Bits 0..14 of the mask are set. -/
theorem getLsbD_mask15 {n : Nat} (hn : n < 15) : (0x7FFF#16).getLsbD n = true := by
  rw [← BitVec.testBit_toNat, show (0x7FFF#16).toNat = 2 ^ 15 - 1 from rfl, Nat.testBit_two_pow_sub_one]
  simpa using hn

/-- The mask keeps the complement modulo 32768 (R157). -/
theorem complement15_toNat (vb : Word) : (complement15 vb).toNat = (65535 - vb.toNat) % 32768 := by
  rw [complement15, BitVec.toNat_and, BitVec.toNat_not, show (0x7FFF#16).toNat = 2 ^ 15 - 1 from rfl,
    Nat.and_two_pow_sub_one_eq_mod]

theorem complement15_getLsbD (vb : Word) {n : Nat} (hn : n < 15) : (complement15 vb).getLsbD n = !vb.getLsbD n := by
  have hlow : n < 16 := by omega
  simp [complement15, getLsbD_mask15 hn, hlow]

/-- Settles O53: `not` is the template's instruction whose result is `complement15`. -/
theorem notWritesFifteenBitComplement : Obligations.NotWritesFifteenBitComplement := by
  refine writesResultOfOne_of_exec complement15 (fun _ _ => rfl) (fun _ _ _ => rfl) fun vb => ⟨?_, ?_, ?_⟩
  · exact fun n => complement15_getLsbD vb
  · rw [complement15_toNat]
    omega
  · intro h
    rw [complement15_toNat]
    omega

/-! ### mod -/

theorem remainderMod_zero (vb : Word) {vc : Word} (h : vc.toNat = 0) : remainderMod vb vc = .error .divideByZero := by
  have hzero : vc = 0 := BitVec.eq_of_toNat_eq h
  rw [remainderMod, if_pos hzero]

/-- The remainder by a divisor that is not 0, reduced (R154). -/
theorem remainderMod_nonzero (vb : Word) {vc : Word} (h : vc.toNat ≠ 0) :
    ∃ r, remainderMod vb vc = .ok r ∧ r.toNat = (vb.toNat % vc.toNat) % 32768 := by
  have hzero : vc ≠ 0 := fun hc => h (congrArg BitVec.toNat hc)
  exact ⟨_, by rw [remainderMod, if_neg hzero], toNat_ofNat_mod_modulus _⟩

/-- Settles O50: the outcomes of the four phases of `mod` in their order. -/
theorem modWritesRemainder : Obligations.ModWritesRemainder := by
  intro a b c s
  obtain ⟨hfaultB, hfaultC⟩ := raisesFault_of_resolves (i := .mod a b c) (s := s) rfl
  refine ⟨rfl, fun vb vc hb hc hvc ha => ?_, hfaultB, hfaultC, fun vc hb hc hvc => ?_, fun vc hb hc hvc ha => ?_⟩
  · obtain ⟨r, hr, hvalue⟩ := remainderMod_nonzero vb hvc
    obtain ⟨t, ht, hwrote, hrest, hpc⟩ := memWrite_advance_exists 4 s r ha
    exact ⟨advance 4 t, r, by simp [exec, execMod, hb, hc, hr, ht], hvalue, hwrote, hrest, hpc⟩
  · obtain ⟨vb, hvb⟩ := resolve_exists s hb
    exact ⟨raiseFault .divideByZero (some 11) s, by simp [exec, execMod, hvb, hc, remainderMod_zero vb hvc],
      raiseFault_run ..⟩
  · obtain ⟨vb, hvb⟩ := resolve_exists s hb
    obtain ⟨r, hr, -⟩ := remainderMod_nonzero vb hvc
    exact ⟨raiseFault (.invalidAddress a) (some 11) s,
      by simp [exec, execMod, hvb, hc, hr, memWrite_missing s r ha], raiseFault_run ..⟩

end Sys2Proof.Machine

/-! PROOF. `in` (44_io.md section 2). -/

namespace Sys2Proof.Machine

/-! ### The write that ends an `in` -/

theorem writeInput_exists (s : State) {a : Word} (code : Word) (ha : a.toNat ≤ 32775) :
    ∃ t, writeInput a code s = .ok t ∧ OnlyWrote a code s t ∧ SameRest s t ∧ t.pc = s.pc + 2 := by
  obtain ⟨t, ht, hframe⟩ := memWrite_advance_exists 2 s code ha
  exact ⟨advance 2 t, by simp [writeInput, ht], hframe⟩

theorem writeInput_missing (s : State) {a : Word} (code : Word) (ha : 32776 ≤ a.toNat) :
    writeInput a code s = .error (.invalidAddress a) := by
  simp [writeInput, memWrite_missing s code ha]

/-- Settles O55: the two outcomes of the write where a code is queued, and the wait where none is. -/
theorem inTakesQueuedCodeOrWaits : Obligations.InTakesQueuedCodeOrWaits := by
  refine fun a s => ⟨rfl, fun code rest hq ha => ?_, fun hq ha => ?_, execIn_empty a⟩
  · obtain ⟨t, ht, hwrote, ⟨hstack, hqueue, hout, hrun, hanswers, hconfig⟩, hpc⟩ :=
      writeInput_exists { s with inputQueue := rest } code ha
    have hnext : exec (.in_ a) s = .next t := by rw [exec, execIn_queued a hq, ht, conclude_ok]
    exact ⟨t, hnext, hwrote, hqueue, hpc, hstack, hout, hrun, hanswers, hconfig⟩
  · obtain ⟨code, rest, hq⟩ := List.exists_cons_of_ne_nil hq
    rw [exec, execIn_queued a hq, writeInput_missing _ code ha]
    rfl

/-! ### The answer of the host -/

/-- With an `in` at pc the line's first code goes to its dest. -/
theorem step_line {s : State} {a : Word} {l : Line} {later : List HostAnswer} (hs : s.run = .awaitingInput)
    (hat : InstructionAt s (.in_ a)) (hanswers : s.hostAnswers = .line l :: later) :
    step s = conclude 20 (lineTaken s l later) (writeInput a (inputCodes s.config l).first (lineTaken s l later)) := by
  rw [step_awaiting hs, answerInput_line hanswers, hat.in_dest, phase_ok]

/-- Settles O56: the two outcomes of the write for a line, and the failure for the other answers. -/
theorem hostAnswerEndsTheWait : Obligations.HostAnswerEndsTheWait := by
  refine fun a s later hs hat => ⟨fun l hanswers ha => ?_, fun l hanswers ha => ?_, fun hanswers => ?_⟩
  · obtain ⟨t, ht, hwrote, ⟨hstack, hqueue, hout, hrun, hlater, hconfig⟩, hpc⟩ :=
      writeInput_exists (lineTaken s l later) (inputCodes s.config l).first ha
    have hnext : step s = .next t := by rw [step_line hs hat hanswers, ht, conclude_ok]
    exact ⟨t, hnext, hwrote, hqueue, hrun, hpc, hstack, hout, hlater, hconfig⟩
  · rw [step_line hs hat hanswers, writeInput_missing _ _ ha]
    rfl
  · rw [step_awaiting hs, answerInput_failure hanswers]
    rfl

end Sys2Proof.Machine

/-! PROOF. The codes of a line (44_io.md rule R175). -/

namespace Sys2Proof.Laws

open Sys2Proof.Machine

/-! ### One piece per character -/

/-- The codes of each character, in order. -/
def characterPieces : List Character → List Codes → List Codes
  | [], _ => []
  | c :: cs, given => (characterCodes c given).1 :: characterPieces cs (characterCodes c given).2

/-- The decoding is its pieces one after the other. -/
theorem decodeCharacters_eq_flatten (cs : List Character) (given : List Codes) :
    decodeCharacters cs given = ((characterPieces cs given).map codeWords).flatten := by
  induction cs generalizing given with
  | nil => rfl
  | cons c cs ih => simp [characterPieces, ih]

/-- The value of a byte is kept by the word that holds it. -/
theorem toNat_wordOfByte (b : Byte) : (b.setWidth 16).toNat = b.toNat :=
  BitVec.toNat_setWidth_of_le (by decide)

/-- The piece of an ASCII character is its code alone, whatever stands around it. -/
theorem characterPieces_ascii (cs : List Character) (given : List Codes) :
    List.Forall₂ (fun c p => c.rest = [] → c.first.toNat < 128 → p.rest = [] ∧ p.first.toNat = c.first.toNat)
      cs (characterPieces cs given) := by
  induction cs generalizing given with
  | nil => exact .nil
  | cons c cs ih =>
    refine .cons (fun hrest hfirst => ?_) (ih _)
    rw [characterCodes_ascii ((isAscii_iff c).mpr ⟨hrest, hfirst⟩)]
    exact ⟨rfl, toNat_wordOfByte c.first⟩

/-- The characters outside ASCII take the given codes in order, where there are as many. -/
theorem characterPieces_given (cs : List Character) (given : List Codes)
    (h : given.length = (cs.filter (fun c => !isAscii c)).length) :
    ((cs.zip (characterPieces cs given)).filter (fun p => !isAscii p.1)).map Prod.snd = given := by
  induction cs generalizing given with
  | nil => exact (List.eq_nil_of_length_eq_zero h).symm
  | cons c cs ih =>
    cases hc : isAscii c with
    | true =>
      simp only [hc, List.filter_cons, Bool.not_true] at h
      simp [characterPieces, characterCodes_ascii hc, hc, ih given (by simpa using h)]
    | false =>
      cases given with
      | nil => simp [hc] at h
      | cons codes later =>
        simp [characterPieces, characterCodes_given hc, hc, ih later (by simpa [hc] using h)]

/-! ### Lines without given codes, and lines of ASCII characters -/

theorem codeWords_inputCodes_default {cfg : Config} {l : Line} (h : cfg.inputDecode.lookup l = none) :
    (codeWords (inputCodes cfg l)).map BitVec.toNat =
      ((lineChars l).map (fun c => (characterBytes c).map BitVec.toNat)).flatten := by
  have hgiven : givenCodes cfg l = [] := by simp [givenCodes, h]
  rw [codeWords_inputCodes, hgiven, decodeCharacters_default, List.map_flatten, List.map_map]
  congr 1
  refine List.map_congr_left fun c _ => ?_
  simp only [Function.comp_apply, List.map_map, Function.comp_def, toNat_wordOfByte]

theorem decodeCharacters_ascii (cs : List Character) (given : List Codes)
    (h : ∀ c ∈ cs, c.rest = [] ∧ c.first.toNat < 128) :
    (decodeCharacters cs given).map BitVec.toNat = cs.map (fun c => c.first.toNat) := by
  induction cs with
  | nil => rfl
  | cons c cs ih =>
    have hc := characterCodes_ascii ((isAscii_iff c).mpr (h c (by simp))) given
    have hcs := ih fun d hd => h d (by simp [hd])
    simp [hc, codeWords, hcs, toNat_wordOfByte, -BitVec.toNat_setWidth]

/-- Settles O57: the pieces are `characterPieces`, whose three properties are the lemmas above. -/
theorem lineDecodesToCharacterCodes : Obligations.LineDecodesToCharacterCodes := by
  refine fun cfg l => ⟨⟨characterPieces (lineChars l) (givenCodes cfg l), ?_, ?_, fun given hlookup hlen => ?_⟩,
    codeWords_inputCodes_default, fun hascii => ?_⟩
  · rw [codeWords_inputCodes, decodeCharacters_eq_flatten]
  · exact characterPieces_ascii _ _
  · have hgiven : givenCodes cfg l = given := by simp [givenCodes, hlookup]
    rw [hgiven]
    exact characterPieces_given _ _ hlen
  · rw [codeWords_inputCodes]
    exact decodeCharacters_ascii _ _ hascii

end Sys2Proof.Laws

/-! PROOF. The lines of a stream (44_io.md rule R174). -/

namespace Sys2Proof.Machine

/-! ### The two ways a stream goes on after its first character -/

theorem linesOf_newline (cs : List Character) :
    linesOf (newline :: cs) = { first := newline, rest := [] } :: linesOf cs := by
  simp [linesOf]

/-- A last line of one character. -/
theorem linesOf_last {c : Character} {cs : List Character} (hc : c ≠ newline) (h : linesOf cs = []) :
    linesOf (c :: cs) = [{ first := c, rest := [] }] := by
  simp [linesOf, hc, h]

/-- A character that joins the line after it. -/
theorem linesOf_join {c : Character} {cs : List Character} {l : Line} {ls : List Line} (hc : c ≠ newline)
    (h : linesOf cs = l :: ls) : linesOf (c :: cs) = { first := c, rest := lineChars l } :: ls := by
  simp [linesOf, hc, h]

theorem lineChars_cons (c : Character) (cs : List Character) : lineChars { first := c, rest := cs } = c :: cs := rfl

/-! ### What holds of the lines -/

theorem linesOf_flatten (chars : List Character) : ((linesOf chars).map lineChars).flatten = chars := by
  induction chars with
  | nil => rfl
  | cons c cs ih =>
    by_cases hc : c = newline
    · subst hc
      simp [linesOf_newline, lineChars_cons, ih]
    · cases hls : linesOf cs with
      | nil =>
        rw [hls] at ih
        simpa [linesOf_last hc hls, lineChars_cons] using ih
      | cons l ls =>
        rw [hls] at ih
        simpa [linesOf_join hc hls, lineChars_cons] using ih

/-- A line of one character is framed, whatever the character. -/
theorem framed_single (c : Character) : framed { first := c, rest := [] } := by
  simp [framed, lineChars]

/-- A framed line stays framed behind a character that is no newline. -/
theorem framed_join {c : Character} {l : Line} (hc : c ≠ newline) (h : framed l) :
    framed { first := c, rest := lineChars l } := by
  have hl : lineChars l ≠ [] := List.cons_ne_nil _ _
  rw [framed, lineChars_cons, List.dropLast_cons_of_ne_nil hl, List.mem_cons, not_or]
  exact ⟨Ne.symm hc, h⟩

theorem linesOf_framed (chars : List Character) : ∀ l ∈ linesOf chars, framed l := by
  induction chars with
  | nil => simp [linesOf]
  | cons c cs ih =>
    by_cases hc : c = newline
    · subst hc
      rw [linesOf_newline]
      exact List.forall_mem_cons.mpr ⟨framed_single newline, ih⟩
    · cases hls : linesOf cs with
      | nil =>
        rw [linesOf_last hc hls]
        exact List.forall_mem_cons.mpr ⟨framed_single c, by simp⟩
      | cons l ls =>
        rw [hls, List.forall_mem_cons] at ih
        rw [linesOf_join hc hls]
        exact List.forall_mem_cons.mpr ⟨framed_join hc ih.1, ih.2⟩

theorem linesOf_ends (chars : List Character) :
    ∀ l ∈ (linesOf chars).dropLast, (lineChars l).getLast? = some newline := by
  induction chars with
  | nil => simp [linesOf]
  | cons c cs ih =>
    by_cases hc : c = newline
    · subst hc
      rw [linesOf_newline]
      cases hls : linesOf cs with
      | nil => simp
      | cons l ls =>
        rw [List.dropLast_cons_cons, ← hls]
        exact List.forall_mem_cons.mpr ⟨rfl, ih⟩
    · cases hls : linesOf cs with
      | nil => simp [linesOf_last hc hls]
      | cons l ls =>
        rw [linesOf_join hc hls]
        cases ls with
        | nil => simp
        | cons l' ls' =>
          rw [hls, List.dropLast_cons_cons, List.forall_mem_cons] at ih
          obtain ⟨hl, hls'⟩ := ih
          exact List.forall_mem_cons.mpr ⟨hl, hls'⟩

/-- Settles O58: the three properties of the lines, and the answers by definition. -/
theorem streamIsFramedIntoLines : Obligations.StreamIsFramedIntoLines :=
  fun chars => ⟨linesOf_flatten chars, linesOf_framed chars, linesOf_ends chars, rfl⟩

end Sys2Proof.Machine

/-! PROOF. Images and the invariant at reset (70_reset_and_hazards.md section 1), and the canonical form of memory. -/

namespace Sys2Proof

/-- Bytes of an odd number do not pair into words (R242). -/
theorem wordsOfBytes_odd : ∀ {bytes : List Byte}, bytes.length % 2 = 1 → wordsOfBytes bytes = none
  | [], h => by simp at h
  | [_], _ => rfl
  | lo :: hi :: rest, h => by
    have hrest : rest.length % 2 = 1 := by
      simp only [List.length_cons] at h
      omega
    simp [wordsOfBytes, wordsOfBytes_odd hrest]

end Sys2Proof

namespace Sys2Proof.Machine

/-! ### Images -/

theorem bootImage_odd {bytes : List Byte} (h : wordsOfBytes bytes = none) : bootImage bytes = .error .oddLength := by
  simp [bootImage, h]

theorem bootImage_tooLong {bytes : List Byte} {ws : List Word} (hws : wordsOfBytes bytes = some ws)
    (h : 32768 < ws.length) : bootImage bytes = .error .tooLong := by
  simp [bootImage, hws, h]

/-- Settles O3: an odd image has no words, a long even one more than memory holds, the empty one none. -/
theorem badImagesAreRefused : Obligations.BadImagesAreRefused := by
  refine ⟨fun bytes hodd => bootImage_odd (wordsOfBytes_odd hodd), fun bytes heven hlong => ?_, rfl⟩
  obtain ⟨ws, hws, hlen, -⟩ := wordsOfBytes_even (n := bytes.length / 2) (bytes := bytes) (by omega)
  exact bootImage_tooLong hws (by omega)

/-! ### The invariant at reset -/

/-- Reset with a canonical memory meets the invariant: the stack is unbounded, and the core runs. -/
theorem inv_reset_mem {m : Memory} (hm : Memory.wf m = true) : Inv { State.reset with mem := m } where
  memCanonical := hm
  stackBounded := by simp [State.reset, Config.standard]
  runRecordTrue := runRecordTrue_of_running rfl

/-- Settles O20: the memory of the reset state is canonical. -/
theorem resetMeetsTheInvariant : Obligations.ResetMeetsTheInvariant :=
  inv_reset_mem reset_memory_wf

/-- Settles O21: an accepted image has words that fit memory, and their memory is canonical. -/
theorem bootedImageMeetsTheInvariant : Obligations.BootedImageMeetsTheInvariant := by
  intro bytes s h
  cases hws : wordsOfBytes bytes with
  | none => cases (bootImage_odd hws).symm.trans h
  | some ws =>
    by_cases hfit : ws.length ≤ 32768
    · cases (bootImage_accepts hws hfit).symm.trans h
      exact inv_reset_mem (Memory.wfFrom_ofWords ws 0 (by simpa using hfit))
    · cases (bootImage_tooLong hws (by omega)).symm.trans h

/-! ### One canonical list per memory -/

/-- A canonical list lists nothing below its least address. -/
theorem Memory.read_below {lo a : Nat} {m : Memory} (hm : Memory.wfFrom lo m = true) (ha : a < lo) :
    Memory.read m a = Memory.unlisted := by
  induction m generalizing lo with
  | nil => rfl
  | cons c m ih =>
    obtain ⟨k, w⟩ := c
    obtain ⟨hlo, -, -, hm⟩ := (Memory.wfFrom_cons lo k w m).mp hm
    rw [Memory.read_cons, if_neg (by omega)]
    exact ih hm (by omega)

/-- A canonical list with an entry does not read as the empty one. -/
theorem Memory.read_first_listed {lo k : Nat} {w : Word} {m : Memory} (hm : Memory.wfFrom lo ((k, w) :: m) = true) :
    k < 32768 ∧ Memory.read ((k, w) :: m) k ≠ Memory.unlisted := by
  obtain ⟨-, hk, hw, -⟩ := (Memory.wfFrom_cons lo k w m).mp hm
  exact ⟨hk, by rwa [Memory.read_cons, if_pos rfl]⟩

/-- Of two canonical lists that read alike the second does not begin above the first, whose first word it must list. -/
theorem Memory.first_le {lo lo' k k' : Nat} {w w' : Word} {m m' : Memory}
    (hm : Memory.wfFrom lo ((k, w) :: m) = true) (hm' : Memory.wfFrom lo' ((k', w') :: m') = true)
    (h : ∀ a, a < 32768 → Memory.read ((k, w) :: m) a = Memory.read ((k', w') :: m') a) : k' ≤ k := by
  obtain ⟨hk, hlisted⟩ := Memory.read_first_listed hm
  obtain ⟨-, -, -, hrest⟩ := (Memory.wfFrom_cons lo' k' w' m').mp hm'
  by_contra hlt
  rw [h k hk, Memory.read_cons, if_neg (by omega), Memory.read_below hrest (by omega)] at hlisted
  exact hlisted rfl

theorem Memory.eq_of_read_eq {m m' : Memory} {lo lo' : Nat} (hm : Memory.wfFrom lo m = true)
    (hm' : Memory.wfFrom lo' m' = true) (h : ∀ a, a < 32768 → Memory.read m a = Memory.read m' a) : m = m' := by
  induction m generalizing m' lo lo' with
  | nil =>
    cases m' with
    | nil => rfl
    | cons c' m' =>
      obtain ⟨hk, hlisted⟩ := Memory.read_first_listed hm'
      exact absurd (h _ hk).symm hlisted
  | cons c m ih =>
    obtain ⟨k, w⟩ := c
    cases m' with
    | nil =>
      obtain ⟨hk, hlisted⟩ := Memory.read_first_listed hm
      exact absurd (h _ hk) hlisted
    | cons c' m' =>
      obtain ⟨k', w'⟩ := c'
      obtain rfl : k = k' :=
        Nat.le_antisymm (Memory.first_le hm' hm fun a ha => (h a ha).symm) (Memory.first_le hm hm' h)
      obtain ⟨-, hk, -, hrest⟩ := (Memory.wfFrom_cons lo k w m).mp hm
      obtain ⟨-, -, -, hrest'⟩ := (Memory.wfFrom_cons lo' k w' m').mp hm'
      have hw : w = w' := by simpa [Memory.read_cons] using h k hk
      have htail : ∀ a, a < 32768 → Memory.read m a = Memory.read m' a := by
        intro a ha
        by_cases hak : k = a
        · rw [Memory.read_below hrest (by omega), Memory.read_below hrest' (by omega)]
        · simpa [Memory.read_cons, hak] using h a ha
      rw [hw, ih hrest hrest' htail]

/-- Settles O6: `Memory.eq_of_read_eq` from address 0. -/
theorem canonicalMemoriesReadingAlikeAreEqual : Obligations.CanonicalMemoriesReadingAlikeAreEqual :=
  fun _ _ => Memory.eq_of_read_eq

end Sys2Proof.Machine
